-- ==== Sys2Proof/Word.lean ====
section
/-! DEFINITION. The word types of the serial frame unpacker (00_scope.md rule R8, 30_encoding.md rules R60, R67). -/

namespace Sys2Proof

/-- A RawByte: "an 8-bit unsigned value read from the stream" (R60). -/
abbrev Byte := BitVec 8

/-- The 13-bit event word `{rst, in_valid, in_err, fsm, cfg_two_byte, in_data}` (R67). -/
abbrev EventWord := BitVec 13

/-- The 2-bit fraction code `{H, Q}` (R64). -/
abbrev FracCode := BitVec 2

/-- The fraction as a 7-bit count of hundredths (R65). -/
abbrev Hundredths := BitVec 7

/-- The 2-bit error code (R70). -/
abbrev ErrCode := BitVec 2

end Sys2Proof
end

