-- ==== Sys2Proof/Syntax.lean ====
section
/-! DEFINITION. The six operations of spec/opcode_table.json (30_encoding.md rule R68), one constructor a row.
A constructor carries every bit of its event word that its row leaves open, examined or not, so that
decoding drops nothing. -/

namespace Sys2Proof

/-- The names of the six operations (R68). -/
inductive Op where
  | reset | idle | serr | int1 | int2 | frac
deriving DecidableEq, Repr

/-- An operation with the bits of its event word its row does not fix. Field names are those of R67. -/
inductive Instr where
  /-- RESET (R95): no bit but `r` is examined. -/
  | reset (inValid inErr fsm cfgTwoByte : Bool) (inData : Byte)
  /-- IDLE (R96): no bit but `r` and `v` is examined. -/
  | idle (inErr fsm cfgTwoByte : Bool) (inData : Byte)
  /-- SERR (R90): `fsm` is read as data, the rest is not examined. -/
  | serr (fsm cfgTwoByte : Bool) (inData : Byte)
  /-- INT1 (R81): the integer byte of a one-byte frame. -/
  | int1 (intByte : Byte)
  /-- INT2 (R82): the integer byte of a two-byte frame. -/
  | int2 (intByte : Byte)
  /-- FRAC (R83): the fraction code `lsb[7:6]` and the reserved bits `lsb[5:0]`; `cfg_two_byte` is not examined. -/
  | frac (cfgTwoByte : Bool) (code : FracCode) (rsv : BitVec 6)
deriving DecidableEq, Repr

/-- The operation an instruction performs. -/
def Instr.op : Instr → Op
  | .reset _ _ _ _ _ => .reset
  | .idle _ _ _ _ => .idle
  | .serr _ _ _ => .serr
  | .int1 _ => .int1
  | .int2 _ => .int2
  | .frac _ _ _ => .frac

end Sys2Proof
end

