-- ==== Sys2Proof/WellFormed.lean ====
section
/-! DEFINITION. What can be ill-formed. As syntax nothing is: "There is no illegal, trapping, hint or custom
encoding anywhere in the block" (30_encoding.md rule R71). What can fail is the agreement of an instruction
with the phase it is presented in (bit `s` of the event word is the register `fsm`, R67), and the range of a
word given as a number. -/

namespace Sys2Proof

/-- Bit `s` of the event word an instruction stands for (R67, R68). -/
def Instr.phaseBit : Instr → Bool
  | .reset _ _ fsm _ _ => fsm
  | .idle _ fsm _ _ => fsm
  | .serr fsm _ _ => fsm
  | .int1 _ => false
  | .int2 _ => false
  | .frac _ _ _ => true

/-- The instruction can be the one selected at an edge at which the register `fsm` holds the given bit. -/
def Instr.presentableIn (fsm : Bool) (i : Instr) : Bool := i.phaseBit == fsm

/-- A number that is an event word: it has no bit above bit 12 (R67). -/
def isEventWord (n : Nat) : Bool := decide (n < 2 ^ 13)

end Sys2Proof
end

