-- ==== Sys2Proof/Decode.lean ====
section
/-! DEFINITION. The event word, its decoder and its encoder (30_encoding.md rules R67, R68, R74), and the
opcode table's rows. -/

namespace Sys2Proof

/-- The event word put together from its six fields, bit 12 down to bit 0 (R67). -/
def eventWordOf (r v e s m : Bool) (d : Byte) : EventWord :=
  BitVec.ofBool r ++ BitVec.ofBool v ++ BitVec.ofBool e ++ BitVec.ofBool s ++ BitVec.ofBool m ++ d

/-- The field `d` of an event word: bits 7:0 (R67). -/
def dataField (w : EventWord) : Byte := w.extractLsb' 0 8

/-- The fraction code `lsb[7:6]` of a fraction byte (R64). -/
def fracCodeOf (lsb : Byte) : FracCode := lsb.extractLsb' 6 2

/-- The reserved bits `lsb[5:0]` of a fraction byte (R62, R66). -/
def reservedOf (lsb : Byte) : BitVec 6 := lsb.extractLsb' 0 6

/-- The decoder, in the order of priority of R74: reset, no event, error, fraction byte, integer byte.
It is total (R71: no encoding is illegal). -/
def decode (w : EventWord) : Instr :=
  let v := w.getLsbD 11
  let e := w.getLsbD 10
  let s := w.getLsbD 9
  let m := w.getLsbD 8
  let d := dataField w
  if w.getLsbD 12 then .reset v e s m d
  else if !v then .idle e s m d
  else if e then .serr s m d
  else if s then .frac m (fracCodeOf d) (reservedOf d)
  else if m then .int2 d
  else .int1 d

/-- Why a number is not decoded. -/
inductive DecodeError where
  /-- It has a bit above bit 12: no event word is that wide (R67). -/
  | widerThanEventWord
deriving DecidableEq, Repr

/-- The decoder on a number: numbers that are no event word are rejected by name. -/
def decodeNat (n : Nat) : Except DecodeError Instr :=
  if isEventWord n then .ok (decode (BitVec.ofNat 13 n)) else .error .widerThanEventWord

/-- The instruction read from the low `nbits` bits of `w`, numbered as spec/opcode_table.json numbers them,
the bits above them 0. The block stores no words, so there is no byte order to apply (R40). -/
def decodeTableWord (nbits w : Nat) : Option Instr :=
  match decodeNat (w % 2 ^ nbits) with
  | .ok i => some i
  | .error _ => none

/-- The encoder: the event word of an instruction, from the encoding column of each row (R68). -/
def encode : Instr → EventWord
  | .reset v e s m d => eventWordOf true v e s m d
  | .idle e s m d => eventWordOf false false e s m d
  | .serr s m d => eventWordOf false true true s m d
  | .int1 d => eventWordOf false true false false false d
  | .int2 d => eventWordOf false true false false true d
  | .frac m code rsv => eventWordOf false true false true m (code ++ rsv)

/-- One row of the operation map: the operation is selected when `ew & mask = pattern` (R68). -/
structure OpRow where
  op : Op
  mask : EventWord
  pattern : EventWord
deriving DecidableEq, Repr

/-- The operation map (R68; spec/opcode_table.json). -/
def opTable : List OpRow :=
  [ { op := .reset, mask := 0x1000, pattern := 0x1000 }
  , { op := .idle, mask := 0x1800, pattern := 0x0000 }
  , { op := .serr, mask := 0x1C00, pattern := 0x0C00 }
  , { op := .int1, mask := 0x1F00, pattern := 0x0800 }
  , { op := .int2, mask := 0x1F00, pattern := 0x0900 }
  , { op := .frac, mask := 0x1E00, pattern := 0x0A00 } ]

/-- The row selects the event word. -/
def rowSelects (row : OpRow) (w : EventWord) : Bool := (w &&& row.mask) == row.pattern

/-- The operations whose rows select the event word (exactly one, R68). -/
def selectedOps (w : EventWord) : List Op := (opTable.filter (rowSelects · w)).map OpRow.op

end Sys2Proof
end

