-- ==== Sys2Proof/Config.lean ====
section
/-! DEFINITION. What an implementation of the block fixes: the two static widths (00_scope.md rules R6, R7).
No operation leaves a value undefined (93_implementation_defined.md), so there is no free value here. -/

namespace Sys2Proof

/-- The static parameters of one block, with their legal ranges (R6, R7). -/
structure Params where
  /-- `INT_W`, the width of `rd_int`. -/
  intW : Nat
  /-- `SEQ_W`, the width of `seq` and `rd_seq`. -/
  seqW : Nat
  intW_ge : 8 ≤ intW := by decide
  seqW_ge : 1 ≤ seqW := by decide
deriving DecidableEq, Repr

/-- The spec's defaults, `INT_W = 16` and `SEQ_W = 32` (R6, R7). -/
abbrev Config.defaultParams : Params := { intW := 16, seqW := 32 }

/-- Legal values of the two widths (R6: `INT_W >= 8`; R7: `SEQ_W >= 1`). -/
def Config.legalWidths (intW seqW : Nat) : Bool := decide (8 ≤ intW) && decide (1 ≤ seqW)

/-- The parameters with the given widths, where they are legal. -/
def Config.params? (intW seqW : Nat) : Option Params :=
  if h : 8 ≤ intW ∧ 1 ≤ seqW then some { intW := intW, seqW := seqW, intW_ge := h.1, seqW_ge := h.2 } else none

end Sys2Proof
end

