-- ==== Sys2Proof/Machine/State.lean ====
section
/-! DEFINITION. The state of the block (10_state.md rule R20) and of the model around it, and the state right
after reset (R33). -/

namespace Sys2Proof.Machine

/-- The frame phase (R21): AwaitingIntegerByte is the bit 0, AwaitingFractionByte the bit 1. -/
inductive Phase where
  | awaitingInteger
  | awaitingFraction
deriving DecidableEq, Repr

/-- The five input pins as sampled at one rising edge (R10, R28). -/
structure Pins where
  rst : Bool
  inValid : Bool
  inErr : Bool
  cfgTwoByte : Bool
  inData : Byte
deriving DecidableEq, Repr

/-- The twelve registers of the block, "and nothing else" (R20). -/
structure Registers (p : Params) where
  /-- `fsm` (R21), the block's program counter (R5). -/
  fsm : Phase
  /-- `msb_hold` (R22). -/
  msbHold : Byte
  /-- `seq` (R23): the number the next Reading will carry. -/
  seq : BitVec p.seqW
  /-- `seq_wrapped` (R24), sticky. -/
  seqWrapped : Bool
  /-- `rd_valid` (R25). -/
  rdValid : Bool
  /-- `rd_int` (R25, R63). -/
  rdInt : BitVec p.intW
  /-- `rd_frac_code` (R25, R64). -/
  rdFracCode : FracCode
  /-- `rd_frac_cc` (R25, R65). -/
  rdFracCc : Hundredths
  /-- `rd_seq` (R25). -/
  rdSeq : BitVec p.seqW
  /-- `err_valid` (R26). -/
  errValid : Bool
  /-- `err_code` (R26, R70). -/
  errCode : ErrCode
  /-- `err_phase` (R26, R70). -/
  errPhase : Bool
deriving DecidableEq, Repr

/-- The model's state: the block's widths, its registers, and the pin vectors the environment presents at the
coming edges, the next edge's first. `params` and `input` are the model's own fields (log entries 1, 2): the
block has neither ("The parameters [...] and the input pins are not state", R20). -/
structure State where
  params : Params
  regs : Registers params
  input : List Pins
deriving DecidableEq, Repr

/-- The reasons the block can stop with a fault: none. "Nothing in this block is treated as `fault` or
`stuck`: the step function is total" (93_implementation_defined.md part 1; R10). -/
inductive Fault where
deriving DecidableEq, Repr

/-- The reasons an instruction can be refused. -/
inductive Refusal where
  /-- Raised by an arm of exec whose instruction has no meaning yet (no arm does: all six have theirs). Safe:
  the model stops where the block goes on. -/
  | notModelled (mnemonic : String)
deriving DecidableEq, Repr

/-- The registers after a RESET edge (R33). -/
def Registers.reset (p : Params) : Registers p where
  fsm := .awaitingInteger
  msbHold := 0x00
  seq := 0
  seqWrapped := false
  rdValid := false
  rdInt := 0
  rdFracCode := 0
  rdFracCc := 0
  rdSeq := 0
  errValid := false
  errCode := 0
  errPhase := false

/-- A block of the given widths right after reset, with a trace to run. -/
def State.resetWith (p : Params) (trace : List Pins) : State where
  params := p
  regs := Registers.reset p
  input := trace

/-- The machine right after reset (R33), at the spec's default widths (R6, R7), nothing placed on its input.
DESIGN CHOICE (log entries 1, 2): the widths are the defaults, the input is empty. -/
def State.reset : State := State.resetWith Config.defaultParams []

end Sys2Proof.Machine
end

