-- ==== Sys2Proof/Machine/Operands.lean ====
section
/-! DEFINITION. The operand forms: sign extension, the fraction mux and the phase bit
(30_encoding.md rules R63, R65; 10_state.md rule R21). The fields of a byte are cut out in Decode.lean. -/

namespace Sys2Proof.Machine

/-- The bit `fsm` holds: 0 is AwaitingIntegerByte, 1 is AwaitingFractionByte (R21). -/
def Phase.bit : Phase → Bool
  | .awaitingInteger => false
  | .awaitingFraction => true

/-- The phase a bit stands for (R21). -/
def Phase.ofBit : Bool → Phase
  | false => .awaitingInteger
  | true => .awaitingFraction

/-- `sext_N(b)`: the byte's bit 7 repeated above the byte (R14, R63). -/
def sext (n : Nat) (b : Byte) : BitVec n := b.signExtend n

/-- The 4-way mux from the fraction code to hundredths (R65): constants, no multiplication. -/
def fracMux (c : FracCode) : Hundredths :=
  if c = 0 then 0 else if c = 1 then 25 else if c = 2 then 50 else 75

end Sys2Proof.Machine
end

