-- ==== Sys2Proof/Machine/Flags.lean ====
section
/-! DEFINITION. The counter and the flag computations: `seq` and `seq_wrapped` (10_state.md rules R23, R24),
the error codes (30_encoding.md rule R70). The block has no arithmetic condition codes (R31). -/

namespace Sys2Proof.Machine

/-- `(seq + 1) mod 2^SEQ_W` (R23). -/
def seqNext {n : Nat} (seq : BitVec n) : BitVec n := seq + 1

/-- `seq = 2^SEQ_W - 1`: the emitting edge that wraps the counter (R24). -/
def seqAtTop {n : Nat} (seq : BitVec n) : Bool := decide (seq.toNat = 2 ^ n - 1)

/-- `seq_wrapped` after an emitting edge: set at the wrap, else kept (R24). -/
def wrappedNext {n : Nat} (seq : BitVec n) (wrapped : Bool) : Bool := wrapped || seqAtTop seq

/-- Code 0: no error (R70). -/
def errCodeNone : ErrCode := 0

/-- Code 1: `StreamError` (R70). Codes 2 (`MalformedFrame`) and 3 are never produced (R71, R112). -/
def errCodeStream : ErrCode := 1

end Sys2Proof.Machine
end

