-- ==== Sys2Proof/Machine/Ops.lean ====
section
/-! DEFINITION. The shared operations on the registers (`ClearOutputs`, R14; `Emit`, R80; taking a stream error,
R116; the reset writes, R95), the event the block sees at an edge (R67), and the output ports (R28). -/

namespace Sys2Proof.Machine

/-- `ClearOutputs()`: the eight output registers to zero (R14). -/
def Registers.clearOutputs {p : Params} (r : Registers p) : Registers p :=
  { r with
    rdValid := false, rdInt := 0, rdFracCode := 0, rdFracCc := 0, rdSeq := 0
    errValid := false, errCode := errCodeNone, errPhase := false }

/-- `Emit(b, c)` (R80); `fsm` and `msb_hold` are the caller's to write. -/
def Registers.emit {p : Params} (b : Byte) (c : FracCode) (r : Registers p) : Registers p :=
  { r with
    rdValid := true
    rdInt := sext p.intW b
    rdFracCode := c
    rdFracCc := fracMux c
    rdSeq := r.seq
    seq := seqNext r.seq
    seqWrapped := wrappedNext r.seq r.seqWrapped
    errValid := false, errCode := errCodeNone, errPhase := false }

/-- Taking the block's one exception, `StreamError` (R90, R116): nothing is saved but the phase, there is no
vector and no mode; the next data byte is an integer byte. There is no return operation and nothing to restore
(R117): the next edge performs whatever the pins select. -/
def Registers.takeStreamError {p : Params} (r : Registers p) : Registers p :=
  { r.clearOutputs with
    errValid := true
    errCode := errCodeStream
    errPhase := r.fsm.bit
    fsm := .awaitingInteger }

/-- The register writes of RESET (R95). -/
def Registers.applyReset {p : Params} (r : Registers p) : Registers p :=
  { r.clearOutputs with
    fsm := .awaitingInteger
    msbHold := 0x00
    seq := 0
    seqWrapped := false }

/-- The ten output ports (R28). -/
structure Outputs (p : Params) where
  rdValid : Bool
  rdInt : BitVec p.intW
  rdFracCode : FracCode
  rdFracCc : Hundredths
  rdSeq : BitVec p.seqW
  errValid : Bool
  errCode : ErrCode
  errPhase : Bool
  busy : Bool
  seqWrapped : Bool
deriving DecidableEq, Repr

/-- What the output pins show: register outputs, with `busy` the output of `fsm` (R9, R27, R28). -/
def Registers.outputs {p : Params} (r : Registers p) : Outputs p where
  rdValid := r.rdValid
  rdInt := r.rdInt
  rdFracCode := r.rdFracCode
  rdFracCc := r.rdFracCc
  rdSeq := r.rdSeq
  errValid := r.errValid
  errCode := r.errCode
  errPhase := r.errPhase
  busy := r.fsm.bit
  seqWrapped := r.seqWrapped

/-- The pins at an edge at which the environment presents nothing (R73 `NOP`; R91: a source that has ended
"simply never asserts `in_valid` again"). -/
def Pins.quiet : Pins := { rst := false, inValid := false, inErr := false, cfgTwoByte := false, inData := 0x00 }

/-- The pins at the next edge. DESIGN CHOICE (log entry 2): where the listed input is used up, the environment
presents nothing. -/
def State.pins (s : State) : Pins := s.input.headD Pins.quiet

/-- The event word of a pin vector and a phase (R67). -/
def eventWord (x : Pins) (phase : Phase) : EventWord :=
  eventWordOf x.rst x.inValid x.inErr phase.bit x.cfgTwoByte x.inData

/-- The event word the block decodes at the next edge (R67). -/
def State.eventWord (s : State) : EventWord := Machine.eventWord s.pins s.regs.fsm

/-- The edge consumes the pin vector it sampled (R45): it is not presented again. -/
def State.consumeInput (s : State) : State := { s with input := s.input.tail }

/-- The pins of an event word: all its fields but `s` (R67). -/
def pinsOf (w : EventWord) : Pins where
  rst := w.getLsbD 12
  inValid := w.getLsbD 11
  inErr := w.getLsbD 10
  cfgTwoByte := w.getLsbD 8
  inData := dataField w

/-- The state in which the next edge's event word is `w`: its pins are presented at the next edge, and `fsm`,
which is bit 9 of the word (R67), holds that bit. -/
def State.presentWord (s : State) (w : EventWord) : State :=
  { s with
    regs := { s.regs with fsm := Phase.ofBit (w.getLsbD 9) }
    input := pinsOf w :: s.input.tail }

end Sys2Proof.Machine
end

