-- ==== Sys2Proof/Machine/Control.lean ====
section
/-! DEFINITION. The control operations RESET and IDLE (42_control.md). -/

namespace Sys2Proof.Machine

/-- RESET (R95): every register takes its reset value, whatever else is presented. -/
def execReset (s : State) : Host.Outcome State Fault Refusal :=
  .next { s with regs := s.regs.applyReset }

/-- IDLE (R96): the output registers are cleared, nothing else changes. -/
def execIdle (s : State) : Host.Outcome State Fault Refusal :=
  .next { s with regs := s.regs.clearOutputs }

end Sys2Proof.Machine
end

