-- ==== Sys2Proof/Machine/FrameDecode.lean ====
section
/-! DEFINITION. The frame decode operations INT1, INT2 and FRAC (40_frame_decode.md). -/

namespace Sys2Proof.Machine

/-- INT1 (R81): emit the integer byte with fraction 0.00; `fsm` stays AwaitingIntegerByte. -/
def execInt1 (intByte : Byte) (s : State) : Host.Outcome State Fault Refusal :=
  .next { s with regs := { s.regs.emit intByte 0 with fsm := .awaitingInteger } }

/-- INT2 (R82): hold the integer byte and wait for its fraction byte; nothing is emitted. -/
def execInt2 (intByte : Byte) (s : State) : Host.Outcome State Fault Refusal :=
  .next { s with regs := { s.regs.clearOutputs with msbHold := intByte, fsm := .awaitingFraction } }

/-- FRAC (R83): emit the held integer byte with the fraction code; back to AwaitingIntegerByte. -/
def execFrac (code : FracCode) (s : State) : Host.Outcome State Fault Refusal :=
  .next { s with regs := { s.regs.emit s.regs.msbHold code with fsm := .awaitingInteger } }

end Sys2Proof.Machine
end

