-- ==== Sys2Proof/Machine/StreamError.lean ====
section
/-! DEFINITION. The stream error operation SERR (41_stream_error.md). -/

namespace Sys2Proof.Machine

/-- SERR (R90): the block takes its one exception; `err_phase` is the register `fsm` before the edge. -/
def execSerr (s : State) : Host.Outcome State Fault Refusal :=
  .next { s with regs := s.regs.takeStreamError }

end Sys2Proof.Machine
end

