-- ==== Sys2Proof/Machine/Dispatch.lean ====
section
/-! DEFINITION. One arm per operation (30_encoding.md rule R68). -/

namespace Sys2Proof.Machine

def exec (i : Instr) (s : State) : Host.Outcome State Fault Refusal :=
  match i with
  | .reset _ _ _ _ _ => Sys2Proof.Machine.execReset s
  | .idle _ _ _ _ => Sys2Proof.Machine.execIdle s
  | .serr _ _ _ => Sys2Proof.Machine.execSerr s
  | .int1 intByte => Sys2Proof.Machine.execInt1 intByte s
  | .int2 intByte => Sys2Proof.Machine.execInt2 intByte s
  | .frac _ code _ => Sys2Proof.Machine.execFrac code s

end Sys2Proof.Machine
end

