-- ==== Sys2Proof/Machine/Step.lean ====
section
/-! DEFINITION. One rising edge of `clk` (00_scope.md rules R9, R10). -/

namespace Sys2Proof.Machine

/-- One rising edge: the block samples the pins, performs exactly the operation its event word selects, and the
sampled pin vector is used up (R9, R45, R68). -/
def step (s : State) : Host.Outcome State Fault Refusal :=
  exec (decode s.eventWord) s.consumeInput

/-- The state in which the very next step runs the event word `w` (its low `nbits` bits, the rest 0). -/
def State.withFetchWord (s : State) (nbits w : Nat) : State :=
  s.presentWord (BitVec.ofNat 13 (w % 2 ^ nbits))

end Sys2Proof.Machine
end

