-- ==== Sys2Proof/Machine/EventView.lean ====
section
/-! DEFINITION. What an observer sees of a run: Readings and error reports (30_encoding.md rules R69, R70), the
event view (00_scope.md rule R12), the document's `decodeFrame` (40_frame_decode.md rule R85), and the document's
decoder as a reference (R2). -/

namespace Sys2Proof.Machine

/-- The document's Reading (R69): the three values, not their encodings. The two parts are not combined into one
number ("The block does not combine `integerPart` and `fractionalPart` into one number", R69). -/
structure Reading where
  /-- `integerPart`. -/
  integerPart : Int
  /-- `fractionalPart` in hundredths. -/
  fractionHundredths : Nat
  /-- `sequenceNumber`. -/
  sequenceNumber : Nat
deriving DecidableEq, Repr

/-- What the block reports in one cycle: a Reading (R69) or an error (R70). -/
inductive Report where
  | reading (r : Reading)
  | error (code : ErrCode) (phase : Bool)
deriving DecidableEq, Repr

/-- The Reading on the output port, in a cycle with `rd_valid = 1` (R69). -/
def Registers.reading? {p : Params} (r : Registers p) : Option Reading :=
  if r.rdValid then
    some { integerPart := r.rdInt.toInt, fractionHundredths := r.rdFracCc.toNat, sequenceNumber := r.rdSeq.toNat }
  else none

/-- The error report on the output port, in a cycle with `err_valid = 1` (R70). -/
def Registers.error? {p : Params} (r : Registers p) : Option Report :=
  if r.errValid then some (.error r.errCode r.errPhase) else none

/-- What the outputs report: both at once never happens (R36 (a)). -/
def Registers.reports {p : Params} (r : Registers p) : List Report :=
  (r.reading?.map Report.reading).toList ++ r.error?.toList

/-- The reports seen in the cycles after the next `k` edges, in order (R48, R142). -/
def reportsOver : Nat → State → List Report
  | 0, _ => []
  | k + 1, s =>
    match step s with
    | .next t => t.regs.reports ++ reportsOver k t
    | .fault _ => []
    | .refused _ => []

/-- The Readings among reports, in order. -/
def readingsOf : List Report → List Reading
  | [] => []
  | .reading r :: rest => r :: readingsOf rest
  | .error _ _ :: rest => readingsOf rest

/-- The events of the event view (R12). -/
inductive Event where
  | reset
  | byte (b : Byte) (m : Bool)
  | error
deriving DecidableEq, Repr

/-- The event a pin vector presents; none at an idle edge (R12). -/
def Pins.event? (x : Pins) : Option Event :=
  if x.rst then some .reset
  else if !x.inValid then none
  else if x.inErr then some .error
  else some (.byte x.inData x.cfgTwoByte)

/-- Pins that present a data byte (R12). -/
def Pins.ofByte (b : Byte) (m : Bool) : Pins :=
  { rst := false, inValid := true, inErr := false, cfgTwoByte := m, inData := b }

/-- How a call of the document's `decodeFrame` ends within a number of edges, with the state it leaves. -/
inductive FrameResult where
  | reading (r : Reading) (after : State)
  | streamError (phase : Bool) (after : State)
  /-- The call still waits for a byte ("blocking-on-read"). -/
  | blocked (after : State)
  /-- The machine stopped; no step does (R10). -/
  | stopped
deriving DecidableEq, Repr

/-- The document's `decodeFrame` over at most `k` edges: "the shortest run of events [...] that ends in an
emission (success) or in `Error`" (R12, R85). A call is defined from AwaitingIntegerByte only (R12, R85;
90_conflicts.md C1). DESIGN CHOICE (log entry 15): begun in AwaitingFractionByte, the call takes the frame in progress
as its own, so the next data byte ends it with the Reading of the byte already held. DESIGN CHOICE (log entry 13): a
reset inside a call does not end it. -/
def decodeFrame : Nat → State → FrameResult
  | 0, s => .blocked s
  | k + 1, s =>
    match step s with
    | .next t =>
      match t.regs.reading? with
      | some r => .reading r t
      | none => if t.regs.errValid then .streamError t.regs.errPhase t else decodeFrame k t
    | .fault _ => .stopped
    | .refused _ => .stopped

/-- `fractionalPart` of a fraction byte in hundredths: bit 7 gives 50, bit 6 gives 25 (R2, R65). -/
def fractionOfByte (lsb : Byte) : Nat :=
  (if lsb.getLsbD 7 then 50 else 0) + (if lsb.getLsbD 6 then 25 else 0)

/-- The document's decoder as a reference, over the whole input: it keeps the integer byte of the frame in
progress (if any) and an unbounded counter, and knows nothing of registers, widths or ports (R2). -/
def referenceReports : Option Byte → Nat → List Pins → List Report
  | _, _, [] => []
  | held, n, x :: rest =>
    match x.event? with
    | none => referenceReports held n rest
    | some .reset => referenceReports none 0 rest
    | some .error => .error errCodeStream held.isSome :: referenceReports none n rest
    | some (.byte b m) =>
      match held with
      | some a =>
        .reading { integerPart := a.toInt, fractionHundredths := fractionOfByte b, sequenceNumber := n }
          :: referenceReports none (n + 1) rest
      | none =>
        if m then referenceReports (some b) n rest
        else
          .reading { integerPart := b.toInt, fractionHundredths := 0, sequenceNumber := n }
            :: referenceReports none (n + 1) rest

/-- The integer byte of the frame in progress; a stale `msb_hold` is none (R22, R34). -/
def Registers.heldByte {p : Params} (r : Registers p) : Option Byte :=
  if r.fsm.bit then some r.msbHold else none

/-- A report as a block with a `w`-bit counter shows it (R7, R23). -/
def Report.wrapSeq (w : Nat) : Report → Report
  | .reading r => .reading { r with sequenceNumber := r.sequenceNumber % 2 ^ w }
  | .error code phase => .error code phase

/-- Bytes taken two by two, as Readings numbered from `n` (R43, R44); an odd byte at the end gives nothing. -/
def pairedReadings (n : Nat) : List Byte → List Reading
  | a :: b :: rest =>
    { integerPart := a.toInt, fractionHundredths := fractionOfByte b, sequenceNumber := n }
      :: pairedReadings (n + 1) rest
  | _ => []

end Sys2Proof.Machine
end

