-- ==== Sys2Proof/Machine/Display.lean ====
section
/-! DEFINITION. The host-side display functions ITXT, FTXT and FMT and the sink's pair (45_host_formatting.md).
They are pure functions outside the block (R100); no floating-point value is formed (R102). -/

namespace Sys2Proof.Machine

/-- A string, as the list of its characters. -/
abbrev Text := List Char

/-- `ITXT(i)`: minimal decimal digits, "-" before them for a negative number, nothing otherwise (R101). -/
def itxt (i : Int) : Text :=
  if i < 0 then '-' :: Nat.toDigits 10 i.natAbs else Nat.toDigits 10 i.natAbs

/-- `FTXT(cc)`: exactly two digits, `cc div 10` and `cc mod 10` (R102). -/
def ftxt (cc : Nat) : Text := [Nat.digitChar (cc / 10), Nat.digitChar (cc % 10)]

/-- `FMT(R)` (R103). It reads the integer part and the hundredths only (R100). -/
def fmt (r : Reading) : Text :=
  itxt r.integerPart ++ '.' :: (ftxt r.fractionHundredths ++ [' ', '*', 'C'])

/-- The pair the sink receives (R105); the line around it is the caller's. -/
def sinkPair (r : Reading) : Nat × Text := (r.sequenceNumber, fmt r)

end Sys2Proof.Machine
end

