-- ==== Sys2Proof/Machine/Instances.lean ====
section
/-! DEFINITION. Several streams: one instance of the block each, nothing shared (10_state.md rule R35). -/

namespace Sys2Proof.Machine

/-- A system of instances. They have no identifiers but their place in the list (R120). -/
abbrev System := List State

/-- Instance `k` has a clock edge, the others have none. -/
def stepInstance (k : Nat) (sys : System) : Host.Outcome System Fault Refusal :=
  match sys[k]? with
  | none => .next sys
  | some s =>
    match step s with
    | .next t => .next (sys.set k t)
    | .fault f => .fault f
    | .refused f => .refused f

end Sys2Proof.Machine
end

