-- ==== Sys2Proof/Machine/Trace.lean ====
section
/-! DEFINITION. The trace notation, the block's assembler (30_encoding.md rule R73). -/

namespace Sys2Proof.Machine

/-- One line of an event trace (R73). `cfg false` is `CFG 1`, `cfg true` is `CFG 2`.
DESIGN CHOICE (log entry 16): R73 lets an `RST` line give the other pins ("unless the line gives them") but shows no
form for it; here `rst` takes no pins, and such a line is written `raw true v e m d`. -/
inductive TraceLine where
  | rst
  | nop
  | byte (d : Byte)
  | err (d : Byte)
  | cfg (twoByte : Bool)
  | raw (r v e m : Bool) (d : Byte)
  | frame1 (a : Byte)
  | frame2 (a b : Byte)
  | wait (n : Nat)
deriving DecidableEq, Repr

/-- The pins of `RST`: the other pins written as 0, `cfg_two_byte` as the current mode (R73). -/
def Pins.rstLine (cfg : Bool) : Pins :=
  { rst := true, inValid := false, inErr := false, cfgTwoByte := cfg, inData := 0x00 }

/-- The pins of `NOP` (R73). -/
def Pins.nopLine (cfg : Bool) : Pins :=
  { rst := false, inValid := false, inErr := false, cfgTwoByte := cfg, inData := 0x00 }

/-- The pins of `ERR 0xNN`; `ERR` alone has `in_data = 0x00` (R73). -/
def Pins.errLine (cfg : Bool) (d : Byte) : Pins :=
  { rst := false, inValid := true, inErr := true, cfgTwoByte := cfg, inData := d }

/-- The mode after a line, given the mode before it (R73). -/
def TraceLine.cfgAfter (cfg : Bool) : TraceLine → Bool
  | .rst => cfg
  | .nop => cfg
  | .byte _ => cfg
  | .err _ => cfg
  | .cfg twoByte => twoByte
  | .raw _ _ _ _ _ => cfg
  | .frame1 _ => false
  | .frame2 _ _ => true
  | .wait _ => cfg

/-- The pin vectors a line stands for, one per edge (R73). -/
def TraceLine.pins (cfg : Bool) : TraceLine → List Pins
  | .rst => [Pins.rstLine cfg]
  | .nop => [Pins.nopLine cfg]
  | .byte d => [Pins.ofByte d cfg]
  | .err d => [Pins.errLine cfg d]
  | .cfg _ => []
  | .raw r v e m d => [{ rst := r, inValid := v, inErr := e, cfgTwoByte := m, inData := d }]
  | .frame1 a => [Pins.ofByte a false]
  | .frame2 a b => [Pins.ofByte a true, Pins.ofByte b true]
  | .wait n => List.replicate n (Pins.nopLine cfg)

/-- The pin vectors of a trace, given the mode before its first line (R73). -/
def expandTrace (cfg : Bool) : List TraceLine → List Pins
  | [] => []
  | line :: rest => line.pins cfg ++ expandTrace (line.cfgAfter cfg) rest

end Sys2Proof.Machine
end

