-- ==== Sys2Proof/Safety.lean ====
section
/-! DEFINITION. The terms claims are stated in: the invariants of R36 (10_state.md), what an emitting edge
leaves (R80, 40_frame_decode.md), and the clean end of a run (R144, 70_reset_and_hazards.md). -/

namespace Sys2Proof.Machine

/-- The invariants (a) to (g) of R36. -/
structure Registers.Inv {p : Params} (r : Registers p) : Prop where
  /-- (a) -/
  notBothValid : ¬ (r.rdValid = true ∧ r.errValid = true)
  /-- (b) -/
  readingClear : r.rdValid = false → r.rdInt = 0 ∧ r.rdFracCode = 0 ∧ r.rdFracCc = 0 ∧ r.rdSeq = 0
  /-- (c) -/
  errorClear : r.errValid = false → r.errCode = 0 ∧ r.errPhase = false
  /-- (c) -/
  errorCode : r.errValid = true → r.errCode = 1
  /-- (d) -/
  hundredths : r.rdFracCc.toNat = 25 * r.rdFracCode.toNat
  /-- (e) -/
  integerRange : -128 ≤ r.rdInt.toInt ∧ r.rdInt.toInt ≤ 127
  /-- (e) -/
  signBits : ∀ i, 7 ≤ i → i < p.intW → r.rdInt.getLsbD i = r.rdInt.getLsbD 7
  /-- (f) -/
  nextSeq : r.rdValid = true → r.seq.toNat = (r.rdSeq.toNat + 1) % 2 ^ p.seqW
  /-- (f) -/
  nextSeqUnwrapped : r.rdValid = true → r.seqWrapped = false → r.seq.toNat = r.rdSeq.toNat + 1
  /-- (g) -/
  midFrameQuiet : r.fsm = .awaitingFraction → r.rdValid = false ∧ r.errValid = false

/-- The eight output registers are zero (R14). -/
structure Registers.OutputsZero {p : Params} (r : Registers p) : Prop where
  rdValid : r.rdValid = false
  rdInt : r.rdInt = 0
  rdFracCode : r.rdFracCode = 0
  rdFracCc : r.rdFracCc = 0
  rdSeq : r.rdSeq = 0
  errValid : r.errValid = false
  errCode : r.errCode = 0
  errPhase : r.errPhase = false

/-- `r'` is `r` after `Emit` of a Reading with integer part `i` and fraction code `c`, in the arithmetic of R80
on integers; `fsm` and `msb_hold` are left to the caller. -/
structure Registers.Emitted {p : Params} (r r' : Registers p) (i : Int) (c : Nat) : Prop where
  rdValid : r'.rdValid = true
  rdInt : r'.rdInt.toInt = i
  rdFracCode : r'.rdFracCode.toNat = c
  rdFracCc : r'.rdFracCc.toNat = 100 * c / 4
  rdSeq : r'.rdSeq = r.seq
  seq : r'.seq.toNat = (r.seq.toNat + 1) % 2 ^ p.seqW
  seqWrapped : r'.seqWrapped = true ↔ r.seqWrapped = true ∨ r.seq.toNat = 2 ^ p.seqW - 1
  errValid : r'.errValid = false
  errCode : r'.errCode = 0
  errPhase : r'.errPhase = false

/-- The registers a later operation can read agree: all but the outputs (R96 (b)). -/
structure Registers.SameKept {p : Params} (r r' : Registers p) : Prop where
  fsm : r'.fsm = r.fsm
  msbHold : r'.msbHold = r.msbHold
  seq : r'.seq = r.seq
  seqWrapped : r'.seqWrapped = r.seqWrapped

/-- The run has ended cleanly: `busy = 0`, and the environment presents no further event (R144). -/
def State.EndedCleanly (s : State) : Prop :=
  s.regs.outputs.busy = false ∧ ∀ x ∈ s.input, x.event? = none

end Sys2Proof.Machine
end

