-- ==== Sys2Proof/Certificates/Slice0/Obligations.lean ====
section
/-! DEFINITION. The statements for the provers. -/

open Sys2Proof Sys2Proof.Machine

/-- R95: RESET is selected by bit `r` alone, and from any state, with any unexamined bits, writes every register
with its reset value; the widths and the coming input are not touched. -/
def Obligations.ResetOperationWritesEveryRegister : Prop :=
  (∀ w : EventWord, (decode w).op = .reset ↔ w &&& 0x1000 = 0x1000) ∧
  ∀ (v e f m : Bool) (d : Byte) (s : State), ∃ r : Registers s.params,
    exec (.reset v e f m d) s = .next { s with regs := r } ∧
    r.fsm = .awaitingInteger ∧ r.msbHold = 0 ∧ r.seq = 0 ∧ r.seqWrapped = false ∧ r.OutputsZero

/-- R33: after an edge at which `rst = 1`, from any registers whatever and with any other pins, every register
has its reset value and `busy = 0`; the model's initial states have the same registers. -/
def Obligations.ResetEdgeGivesResetValues : Prop :=
  (∀ s : State, s.pins.rst = true → ∃ r : Registers s.params,
    step s = .next { s with regs := r, input := s.input.tail } ∧
    r.fsm = .awaitingInteger ∧ r.msbHold = 0 ∧ r.seq = 0 ∧ r.seqWrapped = false ∧ r.OutputsZero ∧
    r.outputs.busy = false) ∧
  ∀ (p : Params) (trace : List Pins),
    (State.resetWith p trace).regs.fsm = .awaitingInteger ∧ (State.resetWith p trace).regs.msbHold = 0 ∧
    (State.resetWith p trace).regs.seq = 0 ∧ (State.resetWith p trace).regs.seqWrapped = false ∧
    (State.resetWith p trace).regs.OutputsZero

/-- R96: IDLE clears the output registers and keeps the rest, whatever its unexamined bits. -/
def Obligations.IdleOperationClearsOutputsOnly : Prop :=
  (∀ w : EventWord, (decode w).op = .idle ↔ w &&& 0x1800 = 0x0000) ∧
  ∀ (e f m : Bool) (d : Byte) (s : State), ∃ r : Registers s.params,
    exec (.idle e f m d) s = .next { s with regs := r } ∧ r.OutputsZero ∧ s.regs.SameKept r

/-- R90: SERR reports StreamError with the phase before the edge and returns to AwaitingIntegerByte; no Reading,
and the counter, its flag and the held byte are kept. -/
def Obligations.SerrOperationAbortsFrame : Prop :=
  (∀ w : EventWord, (decode w).op = .serr ↔ w &&& 0x1C00 = 0x0C00) ∧
  ∀ (f m : Bool) (d : Byte) (s : State), ∃ r : Registers s.params,
    exec (.serr f m d) s = .next { s with regs := r } ∧
    r.errValid = true ∧ r.errCode = 1 ∧ (r.errPhase = true ↔ s.regs.fsm = .awaitingFraction) ∧
    r.fsm = .awaitingInteger ∧
    r.rdValid = false ∧ r.rdInt = 0 ∧ r.rdFracCode = 0 ∧ r.rdFracCc = 0 ∧ r.rdSeq = 0 ∧
    r.seq = s.regs.seq ∧ r.seqWrapped = s.regs.seqWrapped ∧ r.msbHold = s.regs.msbHold

/-- R81: INT1 emits its byte, read as signed, with fraction 0.00; `fsm` is AwaitingIntegerByte after it and
`msb_hold` is kept. -/
def Obligations.Int1OperationEmitsIntegerByte : Prop :=
  (∀ (w : EventWord) (b : Byte),
    decode w = .int1 b ↔ w &&& 0x1F00 = 0x0800 ∧ b = w.extractLsb' 0 8) ∧
  ∀ (b : Byte) (s : State), ∃ r : Registers s.params,
    exec (.int1 b) s = .next { s with regs := r } ∧
    s.regs.Emitted r b.toInt 0 ∧ r.fsm = .awaitingInteger ∧ r.msbHold = s.regs.msbHold

/-- R82: INT2 holds its byte and waits for the fraction byte; nothing is emitted and the counter is kept. -/
def Obligations.Int2OperationHoldsIntegerByte : Prop :=
  (∀ (w : EventWord) (b : Byte),
    decode w = .int2 b ↔ w &&& 0x1F00 = 0x0900 ∧ b = w.extractLsb' 0 8) ∧
  ∀ (b : Byte) (s : State), ∃ r : Registers s.params,
    exec (.int2 b) s = .next { s with regs := r } ∧
    r.msbHold = b ∧ r.fsm = .awaitingFraction ∧ r.OutputsZero ∧
    r.seq = s.regs.seq ∧ r.seqWrapped = s.regs.seqWrapped

/-- R83: FRAC emits the held byte, read as signed, with the code in bits 7:6 of its own byte, whatever its other
bits and the mode pin. -/
def Obligations.FracOperationEmitsHeldByte : Prop :=
  (∀ (w : EventWord) (m : Bool) (code : FracCode) (rsv : BitVec 6),
    decode w = .frac m code rsv ↔
      w &&& 0x1E00 = 0x0A00 ∧ m = w.getLsbD 8 ∧ code = w.extractLsb' 6 2 ∧ rsv = w.extractLsb' 0 6) ∧
  ∀ (m : Bool) (code : FracCode) (rsv : BitVec 6) (s : State), ∃ r : Registers s.params,
    exec (.frac m code rsv) s = .next { s with regs := r } ∧
    s.regs.Emitted r s.regs.msbHold.toInt code.toNat ∧ r.fsm = .awaitingInteger ∧ r.msbHold = s.regs.msbHold

/-- R67: where each pin and the phase stand in the event word. -/
def Obligations.EventWordFieldPositions : Prop :=
  ∀ (x : Pins) (phase : Phase),
    (eventWord x phase).getLsbD 12 = x.rst ∧ (eventWord x phase).getLsbD 11 = x.inValid ∧
    (eventWord x phase).getLsbD 10 = x.inErr ∧
    ((eventWord x phase).getLsbD 9 = true ↔ phase = .awaitingFraction) ∧
    (eventWord x phase).getLsbD 8 = x.cfgTwoByte ∧ (eventWord x phase).extractLsb' 0 8 = x.inData

/-- R74: the operation and its operand, in the order of priority of the prose. -/
def Obligations.OperationSelectInPriorityOrder : Prop :=
  ∀ (x : Pins) (phase : Phase),
    (x.rst = true → (decode (eventWord x phase)).op = .reset) ∧
    (x.rst = false → x.inValid = false → (decode (eventWord x phase)).op = .idle) ∧
    (x.rst = false → x.inValid = true → x.inErr = true → (decode (eventWord x phase)).op = .serr) ∧
    (x.rst = false → x.inValid = true → x.inErr = false → phase = .awaitingFraction →
      ∃ (code : FracCode) (rsv : BitVec 6),
        decode (eventWord x phase) = .frac x.cfgTwoByte code rsv ∧ x.inData = code ++ rsv) ∧
    (x.rst = false → x.inValid = true → x.inErr = false → phase = .awaitingInteger → x.cfgTwoByte = true →
      decode (eventWord x phase) = .int2 x.inData) ∧
    (x.rst = false → x.inValid = true → x.inErr = false → phase = .awaitingInteger → x.cfgTwoByte = false →
      decode (eventWord x phase) = .int1 x.inData)

/-- R68: exactly one row selects each event word, it is the decoder's operation, and the rows' word counts are
those of the count check. -/
def Obligations.ExactlyOneRowSelectsEachWord : Prop :=
  (∀ w : EventWord, selectedOps w = [(decode w).op]) ∧
  ([Op.reset, .idle, .serr, .int1, .int2, .frac].map fun op =>
    (List.range 8192).countP fun n => decide ((decode (BitVec.ofNat 13 n)).op = op)) =
    [4096, 2048, 1024, 256, 256, 512]

/-- Decode and encode are inverse to each other, over every instruction and every event word. -/
def Obligations.DecodeEncodeAgree : Prop :=
  (∀ i : Instr, decode (encode i) = i) ∧ ∀ w : EventWord, encode (decode w) = w

/-- Words written out from the encodings of R81 to R83, R90, R95, R96 and the boundary words of V10. The last two
clauses, on a 16-bit number read as a word of the opcode table and on a number with a bit above bit 12 refused,
are the model's choice (log entry 8). -/
def Obligations.WrittenWordsDecode : Prop :=
  decode 0b1101101010101#13 = .reset true false true true 0x55 ∧
  decode 0b0011111111111#13 = .idle true true true 0xFF ∧
  decode 0b0111011000000#13 = .serr true false 0xC0 ∧
  decode 0b0100010000000#13 = .int1 0x80 ∧
  decode 0b0100100010111#13 = .int2 0x17 ∧
  decode 0b0101111010101#13 = .frac true 3 0b010101 ∧
  decodeTableWord 16 0x0900 = some (.int2 0x00) ∧ decodeTableWord 16 0x2000 = none

/-- A step is exec of the decoded instruction, at the state whose sampled pins are used up (R9, R67, R45); that
nothing is presented where no pins are listed is the model's choice (log entry 2). The instruction is always one its
phase can present. The last clause, on a word placed by `withFetchWord`, is the model's choice as a whole: how a
word is placed (log entry 3) and which bits of the number it takes (log entry 8). -/
def Obligations.StepRunsDecodedInstruction : Prop :=
  (∀ s : State,
    step s = exec (decode (eventWord (s.input.headD Pins.quiet) s.regs.fsm)) { s with input := s.input.tail } ∧
    (decode (eventWord (s.input.headD Pins.quiet) s.regs.fsm)).presentableIn s.regs.fsm.bit = true) ∧
  ∀ (s : State) (nbits w : Nat),
    step (s.withFetchWord nbits w) =
      exec (decode (BitVec.ofNat 13 (w % 2 ^ nbits)))
        { s with
          regs := { s.regs with fsm := Phase.ofBit ((BitVec.ofNat 13 (w % 2 ^ nbits)).getLsbD 9) }
          input := s.input.tail }

/-- R10, R45: every run goes on for any number of edges, takes one pin vector an edge, and never changes the
widths. Past the listed input nothing is presented, the model's choice (log entry 2). -/
def Obligations.EveryRunGoesOn : Prop :=
  ∀ (k : Nat) (s : State), ∃ t : State,
    core.run k s = .next t ∧ t.params = s.params ∧ t.input = s.input.drop k

/-- R36 (a) to (g): a step from any state at all leaves a state that meets the invariants; so every step keeps
them. Where no pins are listed nothing is presented, the model's choice (log entry 2). -/
def Obligations.EveryStepEstablishesInvariants : Prop :=
  ∀ s : State, ∃ t : State, step s = .next t ∧ t.regs.Inv

/-- R36 (a) to (g) hold right after reset, at any widths. -/
def Obligations.ResetMeetsInvariants : Prop :=
  ∀ (p : Params) (trace : List Pins), (State.resetWith p trace).regs.Inv

/-- R23: which operations write `seq`, and what; an emission shows the value before the increment. -/
def Obligations.SequenceCounterWrites : Prop :=
  ∀ (i : Instr) (s : State), ∃ r : Registers s.params, exec i s = .next { s with regs := r } ∧
    (i.op = .reset → r.seq.toNat = 0) ∧
    (i.op = .int1 ∨ i.op = .frac →
      r.seq.toNat = (s.regs.seq.toNat + 1) % 2 ^ s.params.seqW ∧ r.rdSeq = s.regs.seq) ∧
    (i.op = .idle ∨ i.op = .serr ∨ i.op = .int2 → r.seq = s.regs.seq)

/-- R24: `seq_wrapped` is set by an emission at the top value only, is cleared by RESET only, and the wrapping
edge leaves `seq = 0` and `rd_seq = 2^SEQ_W - 1`. -/
def Obligations.WrapFlagIsSticky : Prop :=
  ∀ (i : Instr) (s : State), ∃ r : Registers s.params, exec i s = .next { s with regs := r } ∧
    (r.seqWrapped = true ↔ i.op ≠ .reset ∧
      (s.regs.seqWrapped = true ∨
        (i.op = .int1 ∨ i.op = .frac) ∧ s.regs.seq.toNat = 2 ^ s.params.seqW - 1)) ∧
    ((i.op = .int1 ∨ i.op = .frac) → s.regs.seq.toNat = 2 ^ s.params.seqW - 1 →
      r.seq.toNat = 0 ∧ r.rdSeq.toNat = 2 ^ s.params.seqW - 1)

/-- R21: the phase starts at AwaitingIntegerByte and moves as the table of R21 says; INT1 and INT2 are performed
in AwaitingIntegerByte only, FRAC in AwaitingFractionByte only. -/
def Obligations.PhaseTransitionTable : Prop :=
  State.reset.regs.fsm = .awaitingInteger ∧
  (∀ (i : Instr) (s : State), ∃ r : Registers s.params, exec i s = .next { s with regs := r } ∧
    (i.op = .idle → r.fsm = s.regs.fsm) ∧ (i.op = .int2 → r.fsm = .awaitingFraction) ∧
    (i.op = .reset ∨ i.op = .serr ∨ i.op = .int1 ∨ i.op = .frac → r.fsm = .awaitingInteger)) ∧
  ∀ s : State,
    ((decode s.eventWord).op = .int1 ∨ (decode s.eventWord).op = .int2 → s.regs.fsm = .awaitingInteger) ∧
    ((decode s.eventWord).op = .frac → s.regs.fsm = .awaitingFraction)

/-- R22: RESET and INT2 write `msb_hold`, no other operation does; for every operation but FRAC its value before
the edge reaches no other register. -/
def Obligations.HeldByteWrittenAndReadWhereSaid : Prop :=
  ∀ (i : Instr) (s : State) (x : Byte), ∃ r : Registers s.params, exec i s = .next { s with regs := r } ∧
    (i.op = .reset → r.msbHold = 0) ∧ (∀ b, i = .int2 b → r.msbHold = b) ∧
    (i.op ≠ .reset → i.op ≠ .int2 → r.msbHold = s.regs.msbHold) ∧
    (i.op ≠ .frac → ∃ y : Byte,
      exec i { s with regs := { s.regs with msbHold := x } } = .next { s with regs := { r with msbHold := y } })

/-- R25, R26: at every edge the outputs are written; a Reading is shown exactly after INT1 and FRAC, an error
exactly after SERR, and the fields are zero otherwise. -/
def Obligations.OutputsArePulses : Prop :=
  ∀ (i : Instr) (s : State), ∃ r : Registers s.params, exec i s = .next { s with regs := r } ∧
    (r.rdValid = true ↔ i.op = .int1 ∨ i.op = .frac) ∧ (r.errValid = true ↔ i.op = .serr) ∧
    (r.rdValid = false → r.rdInt = 0 ∧ r.rdFracCode = 0 ∧ r.rdFracCc = 0 ∧ r.rdSeq = 0) ∧
    (r.errValid = false → r.errCode = 0 ∧ r.errPhase = false)

/-- R29: `cfg_two_byte` has an effect at an edge that accepts a data byte in AwaitingIntegerByte only, and there it
chooses the phase after the edge. -/
def Obligations.ModePinExaminedAtIntegerByteOnly : Prop :=
  (∀ (s : State) (x : Pins) (m : Bool) (rest : List Pins),
    ¬ (x.rst = false ∧ x.inValid = true ∧ x.inErr = false ∧ s.regs.fsm = .awaitingInteger) →
    step { s with input := { x with cfgTwoByte := m } :: rest } = step { s with input := x :: rest }) ∧
  ∀ (s : State) (x : Pins) (rest : List Pins),
    x.rst = false ∧ x.inValid = true ∧ x.inErr = false ∧ s.regs.fsm = .awaitingInteger →
    ∃ r : Registers s.params, step { s with input := x :: rest } = .next { s with regs := r, input := rest } ∧
      (r.fsm = .awaitingFraction ↔ x.cfgTwoByte = true)

/-- R115: what loses at an edge is lost without trace. Two pin vectors that both reset, both present no event, or
both present an error give the same step, whatever else they present. -/
def Obligations.LosingPinsLeaveNoTrace : Prop :=
  ∀ (s : State) (x y : Pins) (rest : List Pins),
    (x.rst = true ∧ y.rst = true) ∨
    (x.rst = false ∧ y.rst = false ∧ x.inValid = false ∧ y.inValid = false) ∨
    (x.rst = false ∧ y.rst = false ∧ x.inValid = true ∧ y.inValid = true ∧ x.inErr = true ∧ y.inErr = true) →
    step { s with input := x :: rest } = step { s with input := y :: rest }

/-- R66: two fraction bytes that agree in bits 7 and 6 give the same step, whatever the mode pin. -/
def Obligations.ReservedBitsHaveNoEffect : Prop :=
  ∀ (s : State) (b b' : Byte) (m m' : Bool) (rest : List Pins),
    s.regs.fsm = .awaitingFraction → b &&& 0xC0 = b' &&& 0xC0 →
    step { s with input := Pins.ofByte b m :: rest } = step { s with input := Pins.ofByte b' m' :: rest }

/-- R63: the emitted integer part, bit by bit and as a number, at any legal `INT_W`, for both emitting
operations. -/
def Obligations.IntegerPartIsSignExtended : Prop :=
  (∀ (b : Byte) (s : State), ∃ r : Registers s.params, exec (.int1 b) s = .next { s with regs := r } ∧
    (∀ j, j < s.params.intW → r.rdInt.getLsbD j = if j < 8 then b.getLsbD j else b.getLsbD 7) ∧
    r.rdInt.toInt = if b.getLsbD 7 then (b.toNat : Int) - 256 else b.toNat) ∧
  ∀ (m : Bool) (code : FracCode) (rsv : BitVec 6) (s : State), ∃ r : Registers s.params,
    exec (.frac m code rsv) s = .next { s with regs := r } ∧
    (∀ j, j < s.params.intW →
      r.rdInt.getLsbD j = if j < 8 then s.regs.msbHold.getLsbD j else s.regs.msbHold.getLsbD 7) ∧
    r.rdInt.toInt =
      if s.regs.msbHold.getLsbD 7 then (s.regs.msbHold.toNat : Int) - 256 else s.regs.msbHold.toNat

/-- R64, R65: from a fraction byte on the pins to the two fraction outputs. -/
def Obligations.FractionComesFromTopTwoBits : Prop :=
  ∀ (s : State) (lsb : Byte) (m : Bool) (rest : List Pins), s.regs.fsm = .awaitingFraction →
    ∃ r : Registers s.params,
      step { s with input := Pins.ofByte lsb m :: rest } = .next { s with regs := r, input := rest } ∧
      r.rdValid = true ∧ r.rdFracCode.toNat = lsb.toNat / 64 ∧
      r.rdFracCc.toNat = (if lsb.getLsbD 7 then 50 else 0) + (if lsb.getLsbD 6 then 25 else 0)

/-- R111, R112: an error is reported exactly when the pins present one, always with code 1; codes 2 and 3 never
stand in the register. Where no pins are listed nothing is presented, the model's choice (log entry 2). -/
def Obligations.OnlyStreamErrorIsReported : Prop :=
  ∀ s : State, ∃ t : State, step s = .next t ∧
    (t.regs.errValid = true ↔ s.pins.rst = false ∧ s.pins.inValid = true ∧ s.pins.inErr = true) ∧
    (t.regs.errValid = true → t.regs.errCode = 1) ∧ t.regs.errCode ≠ 2 ∧ t.regs.errCode ≠ 3

/-- R12, R96 (b): leaving out every idle edge of a run changes neither what is reported nor what is kept. -/
def Obligations.IdleEdgesDoNotMatter : Prop :=
  ∀ (s : State) (trace : List Pins),
    reportsOver trace.length { s with input := trace } =
      reportsOver (trace.filter (·.event?.isSome)).length
        { s with input := trace.filter (·.event?.isSome) } ∧
    ∃ r r' : Registers s.params,
      core.run trace.length { s with input := trace } = .next { s with regs := r, input := [] } ∧
      core.run (trace.filter (·.event?.isSome)).length { s with input := trace.filter (·.event?.isSome) } =
        .next { s with regs := r', input := [] } ∧
      r.SameKept r'

/-- R85 (a) to (d): the document's `decodeFrame`, with any number of idle edges before each event. -/
def Obligations.DecodeFrameMeetsItsContract : Prop :=
  ∀ (s : State) (gap gap' rest : List Pins) (a b : Byte) (m : Bool) (bad : Pins),
    s.regs.fsm = .awaitingInteger → s.regs.seqWrapped = false → s.regs.seq.toNat < 2 ^ s.params.seqW - 1 →
    (∀ x ∈ gap, x.event? = none) → (∀ x ∈ gap', x.event? = none) → bad.event? = some .error →
    (∃ r : Registers s.params,
      decodeFrame (gap.length + 1) { s with input := gap ++ Pins.ofByte a false :: rest } =
        .reading { integerPart := a.toInt, fractionHundredths := 0, sequenceNumber := s.regs.seq.toNat }
          { s with regs := r, input := rest } ∧
      r.fsm = .awaitingInteger ∧ r.seq.toNat = s.regs.seq.toNat + 1 ∧ r.seqWrapped = false) ∧
    (∃ r : Registers s.params,
      decodeFrame (gap.length + gap'.length + 2)
          { s with input := gap ++ Pins.ofByte a true :: (gap' ++ Pins.ofByte b m :: rest) } =
        .reading
          { integerPart := a.toInt, fractionHundredths := 25 * (b.toNat / 64), sequenceNumber := s.regs.seq.toNat }
          { s with regs := r, input := rest } ∧
      r.fsm = .awaitingInteger ∧ r.seq.toNat = s.regs.seq.toNat + 1 ∧ r.seqWrapped = false) ∧
    (∃ r : Registers s.params,
      decodeFrame (gap.length + gap'.length + 2)
          { s with input := gap ++ Pins.ofByte a true :: (gap' ++ bad :: rest) } =
        .streamError true { s with regs := r, input := rest } ∧
      r.errCode = 1 ∧ r.rdValid = false ∧ r.fsm = .awaitingInteger ∧ r.seq = s.regs.seq ∧ r.seqWrapped = false) ∧
    ∃ r : Registers s.params,
      decodeFrame (gap.length + 1) { s with input := gap ++ bad :: rest } =
        .streamError false { s with regs := r, input := rest } ∧
      r.errCode = 1 ∧ r.rdValid = false ∧ r.fsm = .awaitingInteger ∧ r.seq = s.regs.seq ∧ r.seqWrapped = false

/-- R2: over its whole input, from any state, the block reports what the document's decoder reports, its
unbounded counter seen through `SEQ_W` bits. -/
def Obligations.BlockRefinesDocumentDecoder : Prop :=
  ∀ s : State,
    reportsOver s.input.length s =
      (referenceReports s.regs.heldByte s.regs.seq.toNat s.input).map (Report.wrapSeq s.params.seqW)

/-- R48, R36 (h): in a run from reset without another reset whose counter has not wrapped, the Readings are
numbered 0, 1, 2, ... in order, whatever fails between them, and `seq` is their number. -/
def Obligations.SequenceNumbersAreConsecutive : Prop :=
  ∀ (p : Params) (trace : List Pins), (∀ x ∈ trace, x.rst = false) →
    ∃ r : Registers p,
      core.run trace.length (State.resetWith p trace) = .next { params := p, regs := r, input := [] } ∧
      (r.seqWrapped = false →
        (readingsOf (reportsOver trace.length (State.resetWith p trace))).map Reading.sequenceNumber =
          List.range r.seq.toNat)

/-- R43, R44: in two-byte mode the bytes are paired as they come and nothing else; no resynchronisation. The
premise on the counter says that the Readings of the bytes, half as many, carry numbers up to its top. -/
def Obligations.BytesArePairedAsTheyCome : Prop :=
  ∀ (s : State) (bytes : List Byte), s.regs.fsm = .awaitingInteger →
    s.regs.seq.toNat + bytes.length / 2 ≤ 2 ^ s.params.seqW →
    reportsOver bytes.length { s with input := bytes.map (Pins.ofByte · true) } =
      (pairedReadings s.regs.seq.toNat bytes).map Report.reading

/-- R144: after a clean end nothing more is reported and nothing kept changes. Past the listed input this rests
on the model's choice that nothing is presented there (log entry 2). -/
def Obligations.CleanEndStaysQuiet : Prop :=
  ∀ (s : State) (k : Nat), s.EndedCleanly →
    reportsOver k s = [] ∧
    ∃ r : Registers s.params, core.run k s = .next { s with regs := r, input := s.input.drop k } ∧
      r.outputs.busy = false ∧ s.regs.SameKept r

/-- R34: while `fsm = 0` the value of `msb_hold` is never observable: whatever it is replaced by, at every later
edge the outputs are the same. Past the listed input nothing is presented, the model's choice (log entry 2). -/
def Obligations.StaleHeldByteIsUnobservable : Prop :=
  ∀ (s : State) (x : Byte) (k : Nat), s.regs.fsm = .awaitingInteger →
    ∃ r r' : Registers s.params,
      core.run k s = .next { s with regs := r, input := s.input.drop k } ∧
      core.run k { s with regs := { s.regs with msbHold := x } } =
        .next { s with regs := r', input := s.input.drop k } ∧
      r.outputs = r'.outputs ∧ r.seq = r'.seq

/-- R116, R117: after the error edge, which keeps the counter, everything is reported as by a block that has just
been reset but for its counter and flag. Past the listed input nothing is presented, the model's choice
(log entry 2). -/
def Obligations.ErrorEdgeLeavesFreshBlock : Prop :=
  ∀ s : State, s.pins.event? = some .error →
    ∃ r : Registers s.params, step s = .next { s with regs := r, input := s.input.tail } ∧
      r.seq = s.regs.seq ∧ r.seqWrapped = s.regs.seqWrapped ∧
      ∀ k, reportsOver k { s with regs := r, input := s.input.tail } =
        reportsOver k
          { s with
            regs := { Registers.reset s.params with seq := s.regs.seq, seqWrapped := s.regs.seqWrapped }
            input := s.input.tail }

/-- R73: the exact pins of each line of the trace notation, an edge a line but for CFG, FRAME2 and WAIT, and the
mode in force for the lines after it. `ERR` alone is `.err 0x00`; `.cfg false` is `CFG 1`, `.cfg true` is `CFG 2`.
That the mode before the first line is an argument is the model's choice (log entry 10), and so is that an `RST` line
that gives the other pins is written as a RAW line (log entry 16). -/
def Obligations.TraceNotationExpands : Prop :=
  ∀ (cfg : Bool) (rest : List TraceLine) (a b d : Byte) (r v e m : Bool) (n : Nat),
    expandTrace cfg [] = [] ∧
    expandTrace cfg (.rst :: rest) =
      { rst := true, inValid := false, inErr := false, cfgTwoByte := cfg, inData := 0x00 } ::
        expandTrace cfg rest ∧
    expandTrace cfg (.nop :: rest) =
      { rst := false, inValid := false, inErr := false, cfgTwoByte := cfg, inData := 0x00 } ::
        expandTrace cfg rest ∧
    expandTrace cfg (.byte d :: rest) =
      { rst := false, inValid := true, inErr := false, cfgTwoByte := cfg, inData := d } ::
        expandTrace cfg rest ∧
    expandTrace cfg (.err d :: rest) =
      { rst := false, inValid := true, inErr := true, cfgTwoByte := cfg, inData := d } ::
        expandTrace cfg rest ∧
    expandTrace cfg (.raw r v e m d :: rest) =
      { rst := r, inValid := v, inErr := e, cfgTwoByte := m, inData := d } :: expandTrace cfg rest ∧
    expandTrace cfg (.cfg false :: rest) = expandTrace false rest ∧
    expandTrace cfg (.cfg true :: rest) = expandTrace true rest ∧
    expandTrace cfg (.cfg false :: .byte a :: rest) = Pins.ofByte a false :: expandTrace false rest ∧
    expandTrace cfg (.cfg true :: .byte a :: rest) = Pins.ofByte a true :: expandTrace true rest ∧
    expandTrace cfg (.frame1 a :: rest) = expandTrace cfg (.cfg false :: .byte a :: rest) ∧
    expandTrace cfg (.frame2 a b :: rest) = expandTrace cfg (.cfg true :: .byte a :: .byte b :: rest) ∧
    expandTrace cfg (.wait n :: rest) = expandTrace cfg (List.replicate n .nop ++ rest) ∧
    (expandTrace cfg (.wait n :: rest)).length = n + (expandTrace cfg rest).length

/-- R101 to R103: for the values a Reading of the block can have, the integer text reads back as the number,
without a leading zero; the fraction text is two digits that read back as the hundredths; the whole is 7 to 10
characters. -/
def Obligations.DisplayTextReadsBack : Prop :=
  ∀ (i : Int) (n c : Nat), -128 ≤ i → i ≤ 127 → c ≤ 3 →
    let value : Text → Nat := fun t => t.foldl (fun acc ch => 10 * acc + (ch.toNat - 48)) 0
    (i < 0 → ∃ t : Text, itxt i = '-' :: t ∧ (value t : Int) = -i ∧ t.head? ≠ some '0' ∧
      t.all Char.isDigit = true) ∧
    (0 ≤ i → (value (itxt i) : Int) = i ∧ (itxt i).length ≤ 3 ∧
      ((itxt i).head? = some '0' → itxt i = ['0']) ∧ (itxt i).all Char.isDigit = true) ∧
    value (ftxt (25 * c)) = 25 * c ∧ (ftxt (25 * c)).length = 2 ∧ ((ftxt (25 * c)).all Char.isDigit = true) ∧
    fmt { integerPart := i, fractionHundredths := 25 * c, sequenceNumber := n } =
      itxt i ++ ['.'] ++ ftxt (25 * c) ++ [' ', '*', 'C'] ∧
    7 ≤ (fmt { integerPart := i, fractionHundredths := 25 * c, sequenceNumber := n }).length ∧
    (fmt { integerPart := i, fractionHundredths := 25 * c, sequenceNumber := n }).length ≤ 10

/-- R104 (equal fields give equal text) and its converse, which follows from R101 to R103: two Readings of the block have the same text exactly when their integer parts and
hundredths agree, whatever their sequence numbers. -/
def Obligations.DisplayTextDeterminesTemperature : Prop :=
  ∀ (i i' : Int) (n n' c c' : Nat),
    -128 ≤ i → i ≤ 127 → -128 ≤ i' → i' ≤ 127 → c ≤ 3 → c' ≤ 3 →
    (fmt { integerPart := i, fractionHundredths := 25 * c, sequenceNumber := n } =
      fmt { integerPart := i', fractionHundredths := 25 * c', sequenceNumber := n' } ↔ i = i' ∧ c = c')

/-- R103, R105 end to end: a two-byte frame accepted by the block, and the pair the sink makes of its Reading. -/
def Obligations.TwoByteFrameReachesSink : Prop :=
  ∀ (s : State) (a b : Byte) (m : Bool) (rest : List Pins), s.regs.fsm = .awaitingInteger →
    ∃ (r : Registers s.params) (rd : Reading),
      core.run 2 { s with input := Pins.ofByte a true :: Pins.ofByte b m :: rest } =
        .next { s with regs := r, input := rest } ∧
      r.reading? = some rd ∧
      sinkPair rd =
        (s.regs.seq.toNat,
          itxt (if a.getLsbD 7 then (a.toNat : Int) - 256 else a.toNat) ++
            ['.'] ++ ftxt (25 * (b.toNat / 64)) ++ [' ', '*', 'C'])

/-- R35: an edge of one instance is a step of that instance and leaves every other instance as it was. That one
instance has an edge while the others have none is the model's choice (log entry 11); R35 says that they share
nothing. -/
def Obligations.InstancesShareNothing : Prop :=
  ∀ (sys : System) (k : Nat) (s : State), sys[k]? = some s →
    ∃ (t : State) (sys' : System),
      step s = .next t ∧ stepInstance k sys = .next sys' ∧ sys'[k]? = some t ∧
      sys'.length = sys.length ∧ ∀ j, j ≠ k → sys'[j]? = sys[j]?

/-- R27, R28: what each output port shows, for any registers whatever. `busy` is the output of `fsm`, every other
port the register of its name. -/
def Obligations.OutputPortsShowRegisters : Prop :=
  ∀ (p : Params) (r : Registers p),
    (r.outputs.busy = true ↔ r.fsm = .awaitingFraction) ∧ r.outputs.seqWrapped = r.seqWrapped ∧
    r.outputs.rdValid = r.rdValid ∧ r.outputs.rdInt = r.rdInt ∧ r.outputs.rdFracCode = r.rdFracCode ∧
    r.outputs.rdFracCc = r.rdFracCc ∧ r.outputs.rdSeq = r.rdSeq ∧ r.outputs.errValid = r.errValid ∧
    r.outputs.errCode = r.errCode ∧ r.outputs.errPhase = r.errPhase
end

