-- ==== Sys2Proof/Laws/Decode.lean ====
section
/-! SUPPORT. The fields of the event word, and how the decoder reads each operation's words. -/

namespace Sys2Proof

section Fields
variable (r v e s m : Bool) (d : Byte)

/-- Every bit of an event word, from its fields (R67). -/
theorem eventWordOf_getLsbD (i : Nat) : (eventWordOf r v e s m d).getLsbD i =
    if i < 8 then d.getLsbD i else if i = 8 then m else if i = 9 then s else if i = 10 then e
    else if i = 11 then v else if i = 12 then r else false := by
  unfold eventWordOf
  rw [BitVec.getLsbD_append, BitVec.getLsbD_append, BitVec.getLsbD_append, BitVec.getLsbD_append,
    BitVec.getLsbD_append]
  simp only [BitVec.getLsbD_ofBool]
  have h : i < 8 ∨ i = 8 ∨ i = 9 ∨ i = 10 ∨ i = 11 ∨ i = 12 ∨ 12 < i := by omega
  obtain h | rfl | rfl | rfl | rfl | rfl | h := h <;> simp
  · simp [h]
  · simp only [show ¬ i < 8 by omega, show i ≠ 8 by omega, show i ≠ 9 by omega, show i ≠ 10 by omega,
      show i ≠ 11 by omega, show i ≠ 12 by omega]
    simp [show ¬ i - 8 = 0 by omega, show ¬ i - 8 - 1 = 0 by omega, show ¬ i - 8 - 1 - 1 = 0 by omega,
      show ¬ i - 8 - 1 - 1 - 1 = 0 by omega, show ¬ i - 8 - 1 - 1 - 1 - 1 = 0 by omega]

theorem eventWordOf_r : (eventWordOf r v e s m d).getLsbD 12 = r := eventWordOf_getLsbD ..
theorem eventWordOf_v : (eventWordOf r v e s m d).getLsbD 11 = v := eventWordOf_getLsbD ..
theorem eventWordOf_e : (eventWordOf r v e s m d).getLsbD 10 = e := eventWordOf_getLsbD ..
theorem eventWordOf_s : (eventWordOf r v e s m d).getLsbD 9 = s := eventWordOf_getLsbD ..
theorem eventWordOf_m : (eventWordOf r v e s m d).getLsbD 8 = m := eventWordOf_getLsbD ..

@[simp] theorem dataField_eventWordOf : dataField (eventWordOf r v e s m d) = d := by
  apply BitVec.eq_of_getLsbD_eq
  intro i hi
  rw [dataField, BitVec.getLsbD_extractLsb', Nat.zero_add, eventWordOf_getLsbD]
  simp only [hi, decide_true, Bool.true_and, if_true]

/-- The decoder on a word given by its fields, in the order of R74. -/
theorem decode_eventWordOf : decode (eventWordOf r v e s m d) =
    if r then .reset v e s m d else if !v then .idle e s m d else if e then .serr s m d
    else if s then .frac m (fracCodeOf d) (reservedOf d) else if m then .int2 d else .int1 d := by
  simp only [decode, eventWordOf_r, eventWordOf_v, eventWordOf_e, eventWordOf_s, eventWordOf_m,
    dataField_eventWordOf]

end Fields

/-- A fraction byte put together from its two fields (R62). -/
theorem fracCodeOf_append (code : FracCode) (rsv : BitVec 6) : fracCodeOf (code ++ rsv) = code := by
  apply BitVec.eq_of_getLsbD_eq
  intro i hi
  rw [fracCodeOf, BitVec.getLsbD_extractLsb', BitVec.getLsbD_append]
  simp [hi]

theorem reservedOf_append (code : FracCode) (rsv : BitVec 6) : reservedOf (code ++ rsv) = rsv := by
  apply BitVec.eq_of_getLsbD_eq
  intro i hi
  rw [reservedOf, BitVec.getLsbD_extractLsb', BitVec.getLsbD_append]
  simp [hi]

/-- A byte is its two fraction fields side by side (R62). -/
theorem fracCodeOf_append_reservedOf (d : Byte) : fracCodeOf d ++ reservedOf d = d := by
  apply BitVec.eq_of_getLsbD_eq
  intro i hi
  rw [fracCodeOf, reservedOf, BitVec.getLsbD_append, BitVec.getLsbD_extractLsb', BitVec.getLsbD_extractLsb']
  by_cases h : i < 6
  · simp [h]
  · have : i - 6 < 2 := by omega
    simp [h, this, show 6 + (i - 6) = i by omega]

/-- Every event word is the word of its fields (R67). -/
theorem eventWordOf_fields (w : EventWord) :
    eventWordOf (w.getLsbD 12) (w.getLsbD 11) (w.getLsbD 10) (w.getLsbD 9) (w.getLsbD 8) (dataField w) = w := by
  apply BitVec.eq_of_getLsbD_eq
  intro i hi
  rw [eventWordOf_getLsbD]
  have h : i < 8 ∨ i = 8 ∨ i = 9 ∨ i = 10 ∨ i = 11 ∨ i = 12 := by omega
  obtain h | rfl | rfl | rfl | rfl | rfl := h
  · rw [dataField, BitVec.getLsbD_extractLsb', Nat.zero_add]
    simp only [h, decide_true, Bool.true_and, if_true]
  all_goals rfl

end Sys2Proof
end

