-- ==== Sys2Proof/Laws/State.lean ====
section
/-! SUPPORT. One lemma per field per update of State and Registers, true by rfl. -/

namespace Sys2Proof.Machine

section Reset
variable (p : Params) (trace : List Pins)

@[simp] theorem Registers.reset_fsm : (Registers.reset p).fsm = .awaitingInteger := rfl
@[simp] theorem Registers.reset_msbHold : (Registers.reset p).msbHold = 0 := rfl
@[simp] theorem Registers.reset_seq : (Registers.reset p).seq = 0 := rfl
@[simp] theorem Registers.reset_seqWrapped : (Registers.reset p).seqWrapped = false := rfl
@[simp] theorem Registers.reset_rdValid : (Registers.reset p).rdValid = false := rfl
@[simp] theorem Registers.reset_rdInt : (Registers.reset p).rdInt = 0 := rfl
@[simp] theorem Registers.reset_rdFracCode : (Registers.reset p).rdFracCode = 0 := rfl
@[simp] theorem Registers.reset_rdFracCc : (Registers.reset p).rdFracCc = 0 := rfl
@[simp] theorem Registers.reset_rdSeq : (Registers.reset p).rdSeq = 0 := rfl
@[simp] theorem Registers.reset_errValid : (Registers.reset p).errValid = false := rfl
@[simp] theorem Registers.reset_errCode : (Registers.reset p).errCode = 0 := rfl
@[simp] theorem Registers.reset_errPhase : (Registers.reset p).errPhase = false := rfl
@[simp] theorem State.resetWith_params : (State.resetWith p trace).params = p := rfl
@[simp] theorem State.resetWith_regs : (State.resetWith p trace).regs = Registers.reset p := rfl
@[simp] theorem State.resetWith_input : (State.resetWith p trace).input = trace := rfl

end Reset

section Registers
variable {p : Params} (r : Registers p) (b : Byte) (c : FracCode)

@[simp] theorem Registers.clearOutputs_fsm : r.clearOutputs.fsm = r.fsm := rfl
@[simp] theorem Registers.clearOutputs_msbHold : r.clearOutputs.msbHold = r.msbHold := rfl
@[simp] theorem Registers.clearOutputs_seq : r.clearOutputs.seq = r.seq := rfl
@[simp] theorem Registers.clearOutputs_seqWrapped : r.clearOutputs.seqWrapped = r.seqWrapped := rfl
@[simp] theorem Registers.clearOutputs_rdValid : r.clearOutputs.rdValid = false := rfl
@[simp] theorem Registers.clearOutputs_rdInt : r.clearOutputs.rdInt = 0 := rfl
@[simp] theorem Registers.clearOutputs_rdFracCode : r.clearOutputs.rdFracCode = 0 := rfl
@[simp] theorem Registers.clearOutputs_rdFracCc : r.clearOutputs.rdFracCc = 0 := rfl
@[simp] theorem Registers.clearOutputs_rdSeq : r.clearOutputs.rdSeq = 0 := rfl
@[simp] theorem Registers.clearOutputs_errValid : r.clearOutputs.errValid = false := rfl
@[simp] theorem Registers.clearOutputs_errCode : r.clearOutputs.errCode = 0 := rfl
@[simp] theorem Registers.clearOutputs_errPhase : r.clearOutputs.errPhase = false := rfl

@[simp] theorem Registers.emit_fsm : (r.emit b c).fsm = r.fsm := rfl
@[simp] theorem Registers.emit_msbHold : (r.emit b c).msbHold = r.msbHold := rfl
@[simp] theorem Registers.emit_seq : (r.emit b c).seq = seqNext r.seq := rfl
@[simp] theorem Registers.emit_seqWrapped : (r.emit b c).seqWrapped = wrappedNext r.seq r.seqWrapped := rfl
@[simp] theorem Registers.emit_rdValid : (r.emit b c).rdValid = true := rfl
@[simp] theorem Registers.emit_rdInt : (r.emit b c).rdInt = sext p.intW b := rfl
@[simp] theorem Registers.emit_rdFracCode : (r.emit b c).rdFracCode = c := rfl
@[simp] theorem Registers.emit_rdFracCc : (r.emit b c).rdFracCc = fracMux c := rfl
@[simp] theorem Registers.emit_rdSeq : (r.emit b c).rdSeq = r.seq := rfl
@[simp] theorem Registers.emit_errValid : (r.emit b c).errValid = false := rfl
@[simp] theorem Registers.emit_errCode : (r.emit b c).errCode = 0 := rfl
@[simp] theorem Registers.emit_errPhase : (r.emit b c).errPhase = false := rfl

@[simp] theorem Registers.takeStreamError_fsm : r.takeStreamError.fsm = .awaitingInteger := rfl
@[simp] theorem Registers.takeStreamError_msbHold : r.takeStreamError.msbHold = r.msbHold := rfl
@[simp] theorem Registers.takeStreamError_seq : r.takeStreamError.seq = r.seq := rfl
@[simp] theorem Registers.takeStreamError_seqWrapped : r.takeStreamError.seqWrapped = r.seqWrapped := rfl
@[simp] theorem Registers.takeStreamError_rdValid : r.takeStreamError.rdValid = false := rfl
@[simp] theorem Registers.takeStreamError_rdInt : r.takeStreamError.rdInt = 0 := rfl
@[simp] theorem Registers.takeStreamError_rdFracCode : r.takeStreamError.rdFracCode = 0 := rfl
@[simp] theorem Registers.takeStreamError_rdFracCc : r.takeStreamError.rdFracCc = 0 := rfl
@[simp] theorem Registers.takeStreamError_rdSeq : r.takeStreamError.rdSeq = 0 := rfl
@[simp] theorem Registers.takeStreamError_errValid : r.takeStreamError.errValid = true := rfl
@[simp] theorem Registers.takeStreamError_errCode : r.takeStreamError.errCode = 1 := rfl
@[simp] theorem Registers.takeStreamError_errPhase : r.takeStreamError.errPhase = r.fsm.bit := rfl

/-- RESET's writes leave nothing of the old registers: they are the reset values (R33, R95). -/
@[simp] theorem Registers.applyReset_eq_reset : r.applyReset = Registers.reset p := rfl

end Registers

section States
variable (s : State) (w : EventWord)

@[simp] theorem State.consumeInput_params : s.consumeInput.params = s.params := rfl
@[simp] theorem State.consumeInput_regs : s.consumeInput.regs = s.regs := rfl
@[simp] theorem State.consumeInput_input : s.consumeInput.input = s.input.tail := rfl
@[simp] theorem State.presentWord_params : (s.presentWord w).params = s.params := rfl
@[simp] theorem State.presentWord_fsm : (s.presentWord w).regs.fsm = Phase.ofBit (w.getLsbD 9) := rfl
@[simp] theorem State.presentWord_input : (s.presentWord w).input = pinsOf w :: s.input.tail := rfl
@[simp] theorem State.presentWord_pins : (s.presentWord w).pins = pinsOf w := rfl

end States

@[simp] theorem Phase.bit_ofBit (b : Bool) : (Phase.ofBit b).bit = b := by cases b <;> rfl
@[simp] theorem Phase.ofBit_bit (x : Phase) : Phase.ofBit x.bit = x := by cases x <;> rfl

/-- The bit of a phase is 1 exactly in AwaitingFractionByte (R21). -/
theorem Phase.bit_eq_true_iff (x : Phase) : x.bit = true ↔ x = .awaitingFraction := by cases x <;> simp [Phase.bit]

end Sys2Proof.Machine
end

