-- ==== Sys2Proof/Laws/Ops.lean ====
section
/-! SUPPORT. One lemma per shared operation that says everything it does, in the arithmetic of the spec. -/

namespace Sys2Proof.Machine

/-- Sign extension keeps the signed value (R84 (a)). -/
theorem sext_toInt {n : Nat} (h : 8 ≤ n) (b : Byte) : (sext n b).toInt = b.toInt :=
  BitVec.toInt_signExtend_of_le h

/-- Bits 7:0 are the byte, every bit above is bit 7 (R63). -/
theorem sext_getLsbD {n i : Nat} (hi : i < n) (b : Byte) :
    (sext n b).getLsbD i = if i < 8 then b.getLsbD i else b.getLsbD 7 := by
  rw [sext, BitVec.getLsbD_signExtend]
  simp only [hi, decide_true, Bool.true_and, BitVec.msb_eq_getLsbD_last]

/-- Each constant of the mux is `100 * c / 4` (R84 (b)). -/
theorem fracMux_toNat (c : FracCode) : (fracMux c).toNat = 100 * c.toNat / 4 := by
  revert c; decide

/-- The increment is modulo `2^SEQ_W` (R23, R84 (c)). -/
theorem seqNext_toNat {n : Nat} (hn : 1 ≤ n) (x : BitVec n) : (seqNext x).toNat = (x.toNat + 1) % 2 ^ n := by
  have h1 : 1 < 2 ^ n := Nat.one_lt_two_pow (by omega)
  simp [seqNext, BitVec.toNat_add, Nat.mod_eq_of_lt h1]

/-- The flag after an emitting edge (R24). -/
theorem wrappedNext_iff {n : Nat} (x : BitVec n) (wrapped : Bool) :
    wrappedNext x wrapped = true ↔ wrapped = true ∨ x.toNat = 2 ^ n - 1 := by
  simp [wrappedNext, seqAtTop]

/-- What `Emit` does, field by field, as R80 says it. -/
theorem Registers.emit_emitted {p : Params} (r : Registers p) (b : Byte) (c : FracCode) :
    r.Emitted (r.emit b c) b.toInt c.toNat where
  rdValid := rfl
  rdInt := sext_toInt p.intW_ge b
  rdFracCode := rfl
  rdFracCc := fracMux_toNat c
  rdSeq := rfl
  seq := seqNext_toNat p.seqW_ge r.seq
  seqWrapped := wrappedNext_iff r.seq r.seqWrapped
  errValid := rfl
  errCode := rfl
  errPhase := rfl

/-- What `ClearOutputs` does (R14). -/
theorem Registers.clearOutputs_zero {p : Params} (r : Registers p) : r.clearOutputs.OutputsZero :=
  ⟨rfl, rfl, rfl, rfl, rfl, rfl, rfl, rfl⟩

theorem Registers.clearOutputs_kept {p : Params} (r : Registers p) : r.SameKept r.clearOutputs :=
  ⟨rfl, rfl, rfl, rfl⟩

theorem State.presentWord_eventWord (s : State) (w : EventWord) : (s.presentWord w).eventWord = w := by
  simp only [State.eventWord, Machine.eventWord, State.presentWord_pins, State.presentWord_fsm, Phase.bit_ofBit,
    pinsOf]
  exact eventWordOf_fields w

end Sys2Proof.Machine
end

