-- ==== Sys2Proof/Laws/PerInstr.lean ====
section
/-! SUPPORT. The per-instruction family TableRow: the encoder's word of an instruction is selected by the row of
its own operation, whatever its open bits (30_encoding.md rule R68). -/

namespace Sys2Proof.Laws.TableRow

/-- The row of an operation in the operation map. -/
def rowOf : Op → OpRow
  | .reset => { op := .reset, mask := 0x1000, pattern := 0x1000 }
  | .idle => { op := .idle, mask := 0x1800, pattern := 0x0000 }
  | .serr => { op := .serr, mask := 0x1C00, pattern := 0x0C00 }
  | .int1 => { op := .int1, mask := 0x1F00, pattern := 0x0800 }
  | .int2 => { op := .int2, mask := 0x1F00, pattern := 0x0900 }
  | .frac => { op := .frac, mask := 0x1E00, pattern := 0x0A00 }

/-- The row is in the map and selects the instruction's word. -/
def Statement (i : Instr) : Prop := rowOf i.op ∈ opTable ∧ rowSelects (rowOf i.op) (encode i) = true

/-- A mask that leaves the byte alone sees the five high fields only. -/
theorem and_high (r v e s m : Bool) (d : Byte) (h : BitVec 5) :
    eventWordOf r v e s m d &&& (h ++ (0 : Byte)) = eventWordOf r v e s m 0 &&& (h ++ (0 : Byte)) := by
  apply BitVec.eq_of_getLsbD_eq
  intro i hi
  rw [BitVec.getLsbD_and, BitVec.getLsbD_and, BitVec.getLsbD_append, eventWordOf_getLsbD, eventWordOf_getLsbD]
  by_cases h8 : i < 8 <;> simp [h8]

theorem reset (v e s m : Bool) (d : Byte) : Statement (.reset v e s m d) := by
  refine ⟨by simp [rowOf, Instr.op, opTable], ?_⟩
  simp only [rowSelects, rowOf, Instr.op, encode, and_high true v e s m d 0b10000#5,
    show (0x1000 : EventWord) = 0b10000#5 ++ (0 : Byte) from rfl]
  revert v e s m; decide

theorem idle (e s m : Bool) (d : Byte) : Statement (.idle e s m d) := by
  refine ⟨by simp [rowOf, Instr.op, opTable], ?_⟩
  simp only [rowSelects, rowOf, Instr.op, encode, and_high false false e s m d 0b11000#5,
    show (0x1800 : EventWord) = 0b11000#5 ++ (0 : Byte) from rfl]
  revert e s m; decide

theorem serr (s m : Bool) (d : Byte) : Statement (.serr s m d) := by
  refine ⟨by simp [rowOf, Instr.op, opTable], ?_⟩
  simp only [rowSelects, rowOf, Instr.op, encode, and_high false true true s m d 0b11100#5,
    show (0x1C00 : EventWord) = 0b11100#5 ++ (0 : Byte) from rfl]
  revert s m; decide

theorem int1 (b : Byte) : Statement (.int1 b) := by
  refine ⟨by simp [rowOf, Instr.op, opTable], ?_⟩
  simp only [rowSelects, rowOf, Instr.op, encode, and_high false true false false false b 0b11111#5,
    show (0x1F00 : EventWord) = 0b11111#5 ++ (0 : Byte) from rfl]
  decide

theorem int2 (b : Byte) : Statement (.int2 b) := by
  refine ⟨by simp [rowOf, Instr.op, opTable], ?_⟩
  simp only [rowSelects, rowOf, Instr.op, encode, and_high false true false false true b 0b11111#5,
    show (0x1F00 : EventWord) = 0b11111#5 ++ (0 : Byte) from rfl]
  decide

theorem frac (m : Bool) (code : FracCode) (rsv : BitVec 6) : Statement (.frac m code rsv) := by
  refine ⟨by simp [rowOf, Instr.op, opTable], ?_⟩
  simp only [rowSelects, rowOf, Instr.op, encode, and_high false true false true m (code ++ rsv) 0b11110#5,
    show (0x1E00 : EventWord) = 0b11110#5 ++ (0 : Byte) from rfl]
  revert m; decide

end Sys2Proof.Laws.TableRow
end

