-- ==== Sys2Proof/Laws/Step.lean ====
section
/-! SUPPORT. What an operation and a step can do, said once. -/

namespace Sys2Proof.Machine

/-- The registers an instruction leaves. -/
def regsAfter {p : Params} : Instr → Registers p → Registers p
  | .reset _ _ _ _ _, r => r.applyReset
  | .idle _ _ _ _, r => r.clearOutputs
  | .serr _ _ _, r => r.takeStreamError
  | .int1 b, r => { r.emit b 0 with fsm := .awaitingInteger }
  | .int2 b, r => { r.clearOutputs with msbHold := b, fsm := .awaitingFraction }
  | .frac _ code _, r => { r.emit r.msbHold code with fsm := .awaitingInteger }

/-- Every instruction answers a next state and touches the registers only. -/
theorem exec_eq (i : Instr) (s : State) : exec i s = .next { s with regs := regsAfter i s.regs } := by
  cases i <;> rfl

/-- The state a step leaves. -/
def stepState (s : State) : State :=
  { s with regs := regsAfter (decode s.eventWord) s.regs, input := s.input.tail }

theorem step_eq (s : State) : step s = .next (stepState s) := exec_eq _ _

@[simp] theorem stepState_params (s : State) : (stepState s).params = s.params := rfl
@[simp] theorem stepState_input (s : State) : (stepState s).input = s.input.tail := rfl
@[simp] theorem stepState_regs (s : State) :
    (stepState s).regs = regsAfter (decode s.eventWord) s.regs := rfl

/-- Inversion: the one next state of a step. -/
theorem step_next_iff (s t : State) : step s = .next t ↔ t = stepState s := by
  rw [step_eq]
  exact ⟨fun h => (Host.Outcome.next.inj h).symm, fun h => h ▸ rfl⟩

theorem exec_next_iff (i : Instr) (s t : State) :
    exec i s = .next t ↔ t = { s with regs := regsAfter i s.regs } := by
  rw [exec_eq]
  exact ⟨fun h => (Host.Outcome.next.inj h).symm, fun h => h ▸ rfl⟩

/-! The same on the registers alone: a run is a fold of `edge` over the pin vectors, at fixed widths. -/

/-- The registers after an edge with the given pins. -/
def edge {p : Params} (x : Pins) (r : Registers p) : Registers p := regsAfter (decode (eventWord x r.fsm)) r

/-- The registers after `k` edges with the given input. -/
def edges {p : Params} : Nat → List Pins → Registers p → Registers p
  | 0, _, r => r
  | k + 1, input, r => edges k input.tail (edge (input.headD Pins.quiet) r)

/-- The reports in the cycles after `k` edges with the given input. -/
def edgeReports {p : Params} : Nat → List Pins → Registers p → List Report
  | 0, _, _ => []
  | k + 1, input, r =>
    (edge (input.headD Pins.quiet) r).reports ++ edgeReports k input.tail (edge (input.headD Pins.quiet) r)

@[simp] theorem edges_zero {p : Params} (input : List Pins) (r : Registers p) : edges 0 input r = r := rfl
@[simp] theorem edges_cons {p : Params} (k : Nat) (x : Pins) (rest : List Pins) (r : Registers p) :
    edges (k + 1) (x :: rest) r = edges k rest (edge x r) := rfl
@[simp] theorem edgeReports_zero {p : Params} (input : List Pins) (r : Registers p) :
    edgeReports 0 input r = [] := rfl
@[simp] theorem edgeReports_cons {p : Params} (k : Nat) (x : Pins) (rest : List Pins) (r : Registers p) :
    edgeReports (k + 1) (x :: rest) r = (edge x r).reports ++ edgeReports k rest (edge x r) := rfl

/-- What an edge does, by the event its pins present and the phase (R12, R74). -/
theorem edge_eq {p : Params} (x : Pins) (r : Registers p) : edge x r =
    match x.event? with
    | none => r.clearOutputs
    | some .reset => Registers.reset p
    | some .error => r.takeStreamError
    | some (.byte b m) =>
      if r.fsm = .awaitingFraction then { r.emit r.msbHold (fracCodeOf b) with fsm := .awaitingInteger }
      else if m then { r.clearOutputs with msbHold := b, fsm := .awaitingFraction }
      else { r.emit b 0 with fsm := .awaitingInteger } := by
  rw [edge, eventWord, decode_eventWordOf, Pins.event?]
  cases r.fsm <;> cases x.rst <;> cases x.inValid <;> cases x.inErr <;> cases x.cfgTwoByte <;> rfl

/-- An edge writes the registers only. -/
theorem step_edge (s : State) :
    step s = .next { s with regs := edge s.pins s.regs, input := s.input.tail } := step_eq s

theorem run_eq (k : Nat) (s : State) :
    core.run k s = .next { s with regs := edges k s.input s.regs, input := s.input.drop k } := by
  induction k generalizing s with
  | zero => rfl
  | succ k ih =>
    have h : core.step s = .next { s with regs := edge s.pins s.regs, input := s.input.tail } := step_edge s
    simp only [Host.Core.run, h]
    refine (ih _).trans ?_
    simp only [List.drop_tail]
    rfl

theorem reportsOver_eq (k : Nat) (s : State) : reportsOver k s = edgeReports k s.input s.regs := by
  induction k generalizing s with
  | zero => rfl
  | succ k ih =>
    rw [reportsOver, step_edge]
    exact congrArg _ (ih _)

/-- What one edge of `decodeFrame` does. -/
theorem decodeFrame_succ (k : Nat) (s : State) : decodeFrame (k + 1) s =
    match (edge s.pins s.regs).reading? with
    | some rd => .reading rd { s with regs := edge s.pins s.regs, input := s.input.tail }
    | none =>
      if (edge s.pins s.regs).errValid then
        .streamError (edge s.pins s.regs).errPhase { s with regs := edge s.pins s.regs, input := s.input.tail }
      else decodeFrame k { s with regs := edge s.pins s.regs, input := s.input.tail } := by
  cases h : (edge s.pins s.regs).reading? <;> simp [decodeFrame, step_edge, h]

/-- What the outputs report after each shared operation. -/
theorem Registers.reports_clearOutputs {p : Params} (r : Registers p) : r.clearOutputs.reports = [] := rfl

theorem Registers.reports_takeStreamError {p : Params} (r : Registers p) :
    r.takeStreamError.reports = [.error errCodeStream r.fsm.bit] := rfl

theorem Registers.reports_reset (p : Params) : (Registers.reset p).reports = [] := rfl

theorem Registers.reading_emit {p : Params} (r : Registers p) (b : Byte) (c : FracCode) :
    (r.emit b c).reading? =
      some { integerPart := b.toInt, fractionHundredths := 100 * c.toNat / 4, sequenceNumber := r.seq.toNat } := by
  simp only [Registers.reading?, Registers.emit_rdValid, Registers.emit_rdInt, Registers.emit_rdFracCc,
    Registers.emit_rdSeq, sext_toInt p.intW_ge, fracMux_toNat, if_true]

end Sys2Proof.Machine
end

