-- ==== Sys2Proof/Tests/Slice0.lean ====
section
/-! SUPPORT. Tests on fixed values, each from a worked value of the spec, and a witness for each statement that
has hypotheses. -/

namespace Sys2Proof.Tests
open Sys2Proof.Machine

/-! ## Well-formedness: an ill-formed term for each check -/

theorem test_widths_default_legal : Config.legalWidths 16 32 = true := by decide
theorem test_widths_minimum_legal : (Config.params? 8 1).isSome = true := by decide
/-- R6: `INT_W >= 8`. -/
theorem test_widths_intW_seven_refused : Config.legalWidths 7 32 = false ∧ Config.params? 7 32 = none := by decide
/-- R7: `SEQ_W >= 1`. -/
theorem test_widths_seqW_zero_refused : Config.legalWidths 16 0 = false ∧ Config.params? 16 0 = none := by decide
/-- R68: INT1 and INT2 are the words with `s = 0`, FRAC those with `s = 1`; a word's own `s` is its phase. -/
theorem test_int1_not_presentable_in_AFB : (Instr.int1 0x00).presentableIn true = false := by decide
theorem test_int2_not_presentable_in_AFB : (Instr.int2 0x00).presentableIn true = false := by decide
theorem test_frac_not_presentable_in_AIB : (Instr.frac true 3 0).presentableIn false = false := by decide
theorem test_serr_not_presentable_in_other_phase : (Instr.serr true true 0x00).presentableIn false = false := by
  decide
theorem test_idle_not_presentable_in_other_phase : (Instr.idle false true true 0x00).presentableIn false = false := by
  decide
theorem test_reset_not_presentable_in_other_phase :
    (Instr.reset false false true true 0x00).presentableIn false = false := by decide
/-- R67: an event word has 13 bits. -/
theorem test_fourteen_bit_word_refused :
    decodeNat 0x2000 = .error .widerThanEventWord ∧ decodeTableWord 16 0x2000 = none := by
  exact ⟨rfl, rfl⟩

/-! ## Decoding: words written out from the encodings of R81 to R83, R90, R95, R96 (fields r v e s m d) -/

/-- 0x1B55, the worked example of R95. -/
theorem test_decode_reset : decode 0b1101101010101#13 = .reset true false true true 0x55 := by decide
/-- 0x05C0, V7. -/
theorem test_decode_idle : decode 0b0010111000000#13 = .idle true false true 0xC0 := by decide
/-- 0x0FC0, V6. -/
theorem test_decode_serr : decode 0b0111111000000#13 = .serr true true 0xC0 := by decide
/-- 0x0880, V3. -/
theorem test_decode_int1 : decode 0b0100010000000#13 = .int1 0x80 := by decide
/-- 0x0917, the worked example of R82. -/
theorem test_decode_int2 : decode 0b0100100010111#13 = .int2 0x17 := by decide
/-- 0x0ABF, program P3 edge 4: code 2, reserved bits set. -/
theorem test_decode_frac : decode 0b0101010111111#13 = .frac false 2 0b111111 := by decide
/-- V10, the boundary words, by operation. -/
theorem test_decode_boundaries :
    [0x0000, 0x07FF, 0x0800, 0x08FF, 0x0900, 0x09FF, 0x0A00, 0x0BFF, 0x0C00, 0x0FFF, 0x1000, 0x1FFF].map
      (fun n => (decode (BitVec.ofNat 13 n)).op) =
    [.idle, .idle, .int1, .int1, .int2, .int2, .frac, .frac, .serr, .serr, .reset, .reset] := by decide
theorem test_encode_frac : encode (.frac false 2 0b111111) = 0x0ABF := by decide

/-! ## One step on small states -/

/-- A state of 95_test_vectors.md: `(fsm, msb_hold, seq, seq_wrapped)`, outputs zero, with the next pins. -/
abbrev st (fsm : Phase) (msb : Byte) (seq : BitVec 32) (wrapped : Bool) (input : List Pins) : State :=
  { params := Config.defaultParams
    regs := { Registers.reset Config.defaultParams with fsm := fsm, msbHold := msb, seq := seq, seqWrapped := wrapped }
    input := input }

/-- The part `(fsm, msb_hold, seq, seq_wrapped)` of a step's state, as numbers. -/
def keptOf (o : Host.Outcome State Fault Refusal) : Option (Phase × Nat × Nat × Bool) :=
  match o with
  | .next t => some (t.regs.fsm, t.regs.msbHold.toNat, t.regs.seq.toNat, t.regs.seqWrapped)
  | .fault _ => none
  | .refused _ => none

/-- The ports `rd_valid, rd_int, rd_frac_code, rd_frac_cc, rd_seq` as numbers. -/
def readOf (o : Host.Outcome State Fault Refusal) : Option (Bool × List Nat) :=
  match o with
  | .next t =>
    some (t.regs.rdValid,
      [t.regs.rdInt.toNat, t.regs.rdFracCode.toNat, t.regs.rdFracCc.toNat, t.regs.rdSeq.toNat])
  | .fault _ => none
  | .refused _ => none

/-- The ports `err_valid, err_code, err_phase`. -/
def errOf (o : Host.Outcome State Fault Refusal) : Option (Bool × Nat × Bool) :=
  match o with
  | .next t => some (t.regs.errValid, t.regs.errCode.toNat, t.regs.errPhase)
  | .fault _ => none
  | .refused _ => none

/-- V7 row 3: no error report although `in_err = 1`. -/
theorem test_reset_wins :
    let o := step (st .awaitingFraction 0x21 0 false [⟨true, true, true, true, 0xFF⟩])
    keptOf o = some (.awaitingInteger, 0, 0, false) ∧ errOf o = some (false, 0, false) := by decide
/-- V7 row 2: `seq_wrapped` is cleared. -/
theorem test_reset_clears_flag :
    keptOf (step (st .awaitingInteger 0x7F 9 true [⟨true, false, false, false, 0x00⟩])) =
      some (.awaitingInteger, 0, 0, false) := by decide
/-- V7 row 5: `in_err` without `in_valid` is no error. -/
theorem test_idle_ignores_error_pin :
    let o := step (st .awaitingInteger 0x19 3 false [⟨false, false, true, true, 0xC0⟩])
    keptOf o = some (.awaitingInteger, 0x19, 3, false) ∧ errOf o = some (false, 0, false) := by decide
/-- P1 edge 3: an idle edge inside a frame. -/
theorem test_idle_mid_frame :
    keptOf (step (st .awaitingFraction 0x19 0 false [⟨false, false, false, true, 0x00⟩])) =
      some (.awaitingFraction, 0x19, 0, false) := by decide
/-- V6 row 4: no Reading although 0xC0 is on the pins. -/
theorem test_serr_mid_frame :
    let o := step (st .awaitingFraction 0x17 5 false [⟨false, true, true, true, 0xC0⟩])
    keptOf o = some (.awaitingInteger, 0x17, 5, false) ∧ errOf o = some (true, 1, true) ∧
      readOf o = some (false, [0, 0, 0, 0]) := by decide
/-- V6 row 1: an error between frames. -/
theorem test_serr_between_frames :
    errOf (step (st .awaitingInteger 0x00 5 false [⟨false, true, true, true, 0x00⟩])) = some (true, 1, false) := by
  decide
/-- V3 row 4: bits 7:6 of a single-byte frame are no fraction. -/
theorem test_int1_negative :
    let o := step (st .awaitingInteger 0x00 5 false [Pins.ofByte 0xC0 false])
    keptOf o = some (.awaitingInteger, 0x00, 6, false) ∧ readOf o = some (true, [0xFFC0, 0, 0, 5]) := by decide
/-- V9 (c): the wrap. -/
theorem test_int1_wraps :
    let o := step (st .awaitingInteger 0x00 0xFFFFFFFF false [Pins.ofByte 0x05 false])
    keptOf o = some (.awaitingInteger, 0x00, 0, true) ∧ readOf o = some (true, [0x0005, 0, 0, 0xFFFFFFFF]) := by
  decide
/-- V4 row 2: the stale byte is overwritten, nothing is emitted. -/
theorem test_int2_holds :
    let o := step (st .awaitingInteger 0xAA 5 false [Pins.ofByte 0x17 true])
    keptOf o = some (.awaitingFraction, 0x17, 5, false) ∧ readOf o = some (false, [0, 0, 0, 0]) := by decide
/-- V5 row 3: the mode pin is not examined. -/
theorem test_frac_half :
    let o := step (st .awaitingFraction 0xE9 5 false [Pins.ofByte 0x80 false])
    keptOf o = some (.awaitingInteger, 0xE9, 6, false) ∧ readOf o = some (true, [0xFFE9, 2, 50, 5]) := by decide
/-- V5 row 6: reserved bits are ignored. -/
theorem test_frac_reserved_bits :
    readOf (step (st .awaitingFraction 0xE9 5 false [Pins.ofByte 0x3F true])) = some (true, [0xFFE9, 0, 0, 5]) := by
  decide
/-- P4 edge 5, at `SEQ_W = 2`: the wrap at a small counter. -/
theorem test_wrap_at_two_bits :
    let p : Params := { intW := 16, seqW := 2 }
    let r : Registers p := { Registers.reset p with seq := 3 }
    let o := step { params := p, regs := r, input := [Pins.ofByte 0x01 false] }
    keptOf o = some (.awaitingInteger, 0, 0, true) ∧ readOf o = some (true, [1, 0, 0, 3]) := by decide
/-- V1 corner row 0x80 at `INT_W = 8` and `INT_W = 32`. -/
theorem test_sext_other_widths : sext 8 0x80 = 0x80 ∧ sext 32 0x80 = 0xFFFFFF80 := by decide
/-- The word 0x0A00 (FRAC) placed after reset is the first instruction run: it emits, with the phase it needs. -/
theorem test_placed_frac_runs_first :
    readOf (step (State.reset.withFetchWord 16 0x0AC0)) = some (true, [0, 3, 75, 0]) := by decide

/-! ## Display text (V11) -/

theorem test_fmt_below_zero :
    fmt { integerPart := -23, fractionHundredths := 25, sequenceNumber := 0 } = "-23.25 *C".toList := by decide
theorem test_fmt_zero :
    fmt { integerPart := 0, fractionHundredths := 0, sequenceNumber := 7 } = "0.00 *C".toList := by decide
/-- R73: `FRAME2 0x17 0xC0` after `CFG 1`. -/
theorem test_trace_frame2 :
    expandTrace false [.frame2 0x17 0xC0] = [Pins.ofByte 0x17 true, Pins.ofByte 0xC0 true] := by decide
/-- The states after edges 2 and 4 of P1 and P3: `busy` mid-frame, and not after the fraction byte. -/
theorem test_busy_port :
    (st .awaitingFraction 0x19 0 false []).regs.outputs.busy = true ∧
    (st .awaitingInteger 0x7F 2 false []).regs.outputs.busy = false := by decide

/-! ## Witnesses: the hypotheses of each statement can be met, clause by clause -/

theorem witness_ResetEdge :
    (st .awaitingFraction 0x11 1 false [⟨true, true, false, true, 0x55⟩]).pins.rst = true := by decide
/-- One pin vector for each clause of OperationSelectInPriorityOrder, in order (the phase is free in the first
three), with the operation it selects. -/
theorem witness_OperationSelect :
    (decode (eventWord ⟨true, true, true, true, 0xFF⟩ .awaitingFraction)).op = .reset ∧
    (decode (eventWord ⟨false, false, true, true, 0xFF⟩ .awaitingInteger)).op = .idle ∧
    (decode (eventWord ⟨false, true, true, true, 0xFF⟩ .awaitingInteger)).op = .serr ∧
    (decode (eventWord ⟨false, true, false, false, 0xFF⟩ .awaitingFraction)).op = .frac ∧
    (decode (eventWord ⟨false, true, false, true, 0xFF⟩ .awaitingInteger)).op = .int2 ∧
    (decode (eventWord ⟨false, true, false, false, 0xFF⟩ .awaitingInteger)).op = .int1 := by decide
/-- Operations for the clauses of SequenceCounterWrites, WrapFlagIsSticky, PhaseTransitionTable,
HeldByteWrittenAndReadWhereSaid and OutputsArePulses, with a counter at its top. -/
theorem witness_OperationClauses :
    (Instr.reset true true true true 0xFF).op = .reset ∧ (Instr.int1 0xFF).op = .int1 ∧
    (Instr.frac true 3 0).op = .frac ∧ (Instr.idle true true true 0xFF).op = .idle ∧
    (Instr.serr true true 0xFF).op = .serr ∧ (Instr.int2 0xFF).op = .int2 ∧
    (st .awaitingInteger 0 0xFFFFFFFF false []).regs.seq.toNat =
      2 ^ (st .awaitingInteger 0 0xFFFFFFFF false []).params.seqW - 1 := by decide
theorem witness_PhaseOfOperation :
    (decode (st .awaitingInteger 0 0 false [Pins.ofByte 0xFF false]).eventWord).op = .int1 ∧
    (decode (st .awaitingInteger 0 0 false [Pins.ofByte 0xFF true]).eventWord).op = .int2 ∧
    (decode (st .awaitingFraction 0 0 false [Pins.ofByte 0xFF false]).eventWord).op = .frac := by decide
/-- First clause: a data byte in AwaitingFractionByte; second clause: a data byte in AwaitingIntegerByte. -/
theorem witness_ModePin :
    (¬ ((Pins.ofByte 0xBF false).rst = false ∧ (Pins.ofByte 0xBF false).inValid = true ∧
        (Pins.ofByte 0xBF false).inErr = false ∧
        (st .awaitingFraction 0x7F 1 false []).regs.fsm = .awaitingInteger)) ∧
    ((Pins.ofByte 0xBF true).rst = false ∧ (Pins.ofByte 0xBF true).inValid = true ∧
      (Pins.ofByte 0xBF true).inErr = false ∧
      (st .awaitingInteger 0x7F 1 false []).regs.fsm = .awaitingInteger) := by decide
/-- Two different pin vectors for each of the three cases of LosingPinsLeaveNoTrace. -/
theorem witness_LosingPins :
    let a : Pins := ⟨true, true, true, true, 0xC0⟩; let b : Pins := ⟨true, false, false, false, 0x00⟩
    let c : Pins := ⟨false, false, true, true, 0xC0⟩; let d : Pins := ⟨false, false, false, false, 0x00⟩
    let e : Pins := ⟨false, true, true, true, 0xC0⟩; let f : Pins := ⟨false, true, true, false, 0x00⟩
    (a ≠ b ∧ a.rst = true ∧ b.rst = true) ∧
    (c ≠ d ∧ c.rst = false ∧ d.rst = false ∧ c.inValid = false ∧ d.inValid = false) ∧
    (e ≠ f ∧ e.rst = false ∧ f.rst = false ∧ e.inValid = true ∧ f.inValid = true ∧ e.inErr = true ∧
      f.inErr = true) := by decide
theorem witness_ReservedBits :
    (st .awaitingFraction 0xE9 5 false []).regs.fsm = .awaitingFraction ∧
    (0xC0 : Byte) &&& 0xC0 = (0xFF : Byte) &&& 0xC0 ∧ (0xC0 : Byte) ≠ 0xFF := by decide
theorem witness_FractionComesFromTopTwoBits :
    (st .awaitingFraction 0xE9 5 false []).regs.fsm = .awaitingFraction := by decide
/-- All hypotheses of DecodeFrameMeetsItsContract, at the largest counter they admit, with an idle edge in each
gap. -/
theorem witness_DecodeFrame :
    let s := st .awaitingInteger 0xAA 0xFFFFFFFE false []
    let bad : Pins := ⟨false, true, true, false, 0xC0⟩
    s.regs.fsm = .awaitingInteger ∧ s.regs.seqWrapped = false ∧ s.regs.seq.toNat < 2 ^ s.params.seqW - 1 ∧
    (∀ x ∈ [Pins.nopLine true], x.event? = none) ∧ bad.event? = some .error := by decide
/-- A run with an error inside a frame and two Readings, whose counter has not wrapped. -/
theorem witness_SequenceNumbers :
    (∀ x ∈ [Pins.ofByte 1 true, Pins.errLine true 0, Pins.ofByte 2 false, Pins.ofByte 3 false], x.rst = false) ∧
    (edges 4 [Pins.ofByte 1 true, Pins.errLine true 0, Pins.ofByte 2 false, Pins.ofByte 3 false]
      (Registers.reset Config.defaultParams)).seqWrapped = false := by decide
/-- The counter and the number of Readings at the bound: two Readings, and one Reading at the top value. -/
theorem witness_BytesArePaired :
    let s := st .awaitingInteger 0x00 0xFFFFFFFE false []
    let top := st .awaitingInteger 0x00 0xFFFFFFFF false []
    s.regs.fsm = .awaitingInteger ∧
    s.regs.seq.toNat + [0xC0, 0x18, 0x40, 0x19, (0x80 : Byte)].length / 2 = 2 ^ s.params.seqW ∧
    top.regs.fsm = .awaitingInteger ∧
    top.regs.seq.toNat + [0x17, (0xC0 : Byte)].length / 2 = 2 ^ top.params.seqW := by decide
theorem witness_CleanEnd : (st .awaitingInteger 0xFF 2 false [Pins.nopLine true]).EndedCleanly := by
  constructor
  · decide
  · decide
theorem witness_StaleHeldByte : (st .awaitingInteger 0xE9 6 false []).regs.fsm = .awaitingInteger := by decide
theorem witness_ErrorEdge :
    (st .awaitingFraction 0x17 5 false [Pins.errLine true 0xC0]).pins.event? = some .error := by decide
/-- The ends of the ranges of DisplayTextReadsBack and DisplayTextDeterminesTemperature. -/
theorem witness_DisplayText : (-128 : Int) ≤ -128 ∧ (-128 : Int) ≤ 127 ∧ (127 : Int) ≤ 127 ∧ 3 ≤ 3 := by decide
theorem witness_TwoByteFrame : (st .awaitingInteger 0x00 0 false []).regs.fsm = .awaitingInteger := by decide
theorem witness_Instances : ([State.reset, st .awaitingFraction 0x17 5 false []] : System)[1]? =
    some (st .awaitingFraction 0x17 5 false []) := by rfl

end Sys2Proof.Tests
end

/-! Proofs of the statements of 00_scope.md: what a step runs, that runs go on, that idle edges do not matter, and
that the block refines the document's decoder. -/

namespace Sys2Proof.Machine

/-! ## What a step runs (R10, R67) -/

/-- Decoding keeps bit `s` of the event word (R67), whichever operation it selects. -/
theorem phaseBit_decode_eventWordOf (r v e s m : Bool) (d : Byte) :
    (decode (eventWordOf r v e s m d)).phaseBit = s := by
  rw [decode_eventWordOf]
  cases r
  case true => rfl
  cases v
  case false => rfl
  cases e
  case true => rfl
  cases s
  case true => rfl
  cases m <;> rfl

/-- The instruction decoded from pins and phase can be presented in that phase. -/
theorem presentableIn_decode_eventWord (x : Pins) (phase : Phase) :
    (decode (eventWord x phase)).presentableIn phase.bit = true := by
  simp only [Instr.presentableIn, eventWord, phaseBit_decode_eventWordOf, beq_self_eq_true]

/-- A placed event word is the one the next step runs. -/
theorem step_presentWord (s : State) (w : EventWord) :
    step (s.presentWord w) = exec (decode w) (s.presentWord w).consumeInput := by
  rw [step, State.presentWord_eventWord]

/-- Settles O13: by the definition of `step`, and by `presentWord_eventWord` for a placed word. -/
theorem stepRunsDecodedInstruction : Obligations.StepRunsDecodedInstruction :=
  ⟨fun _ => ⟨rfl, presentableIn_decode_eventWord _ _⟩, fun s _ _ => step_presentWord s _⟩

/-- Settles O14: `run_eq` gives the state after `k` edges. -/
theorem everyRunGoesOn : Obligations.EveryRunGoesOn :=
  fun k s => ⟨_, run_eq k s, rfl, rfl⟩

/-! ## The output registers are never read: what a run does depends on the kept registers only (R96) -/

section Kept
variable {p : Params} {r r' r'' : Registers p}

theorem Registers.SameKept.refl (r : Registers p) : r.SameKept r := ⟨rfl, rfl, rfl, rfl⟩

theorem Registers.SameKept.symm (h : r.SameKept r') : r'.SameKept r :=
  ⟨h.fsm.symm, h.msbHold.symm, h.seq.symm, h.seqWrapped.symm⟩

theorem Registers.SameKept.trans (h : r.SameKept r') (h' : r'.SameKept r'') : r.SameKept r'' :=
  ⟨h'.fsm.trans h.fsm, h'.msbHold.trans h.msbHold, h'.seq.trans h.seq, h'.seqWrapped.trans h.seqWrapped⟩

/-- The kept registers and the cleared outputs are all twelve (R20). -/
theorem Registers.SameKept.clearOutputs_eq (h : r.SameKept r') : r'.clearOutputs = r.clearOutputs := by
  obtain ⟨hfsm, hmsb, hseq, hwrapped⟩ := h
  simp only [Registers.clearOutputs, hfsm, hmsb, hseq, hwrapped]

/-- Every operation overwrites every output register and reads none. -/
theorem edge_clearOutputs (x : Pins) (r : Registers p) : edge x r.clearOutputs = edge x r := by
  rw [edge, edge, Registers.clearOutputs_fsm]
  cases decode (eventWord x r.fsm) <;> rfl

theorem Registers.SameKept.edge_eq (h : r.SameKept r') (x : Pins) : edge x r' = edge x r := by
  rw [← edge_clearOutputs x r', h.clearOutputs_eq, edge_clearOutputs]

theorem Registers.SameKept.edgeReports_eq (h : r.SameKept r') (k : Nat) (input : List Pins) :
    edgeReports k input r' = edgeReports k input r := by
  cases k with
  | zero => rfl
  | succ k => rw [edgeReports, edgeReports, h.edge_eq]

theorem Registers.SameKept.after_edges (h : r.SameKept r') (k : Nat) (input : List Pins) :
    (edges k input r).SameKept (edges k input r') := by
  cases k with
  | zero => exact h
  | succ k =>
    rw [edges, edges, h.edge_eq]
    exact .refl _

end Kept

/-! ## Idle edges do not matter (R12, R96) -/

/-- The trace without its idle edges. -/
abbrev eventful (trace : List Pins) : List Pins := trace.filter (·.event?.isSome)

section Idle
variable {p : Params} {x : Pins} (rest : List Pins) (r : Registers p)

theorem eventful_cons_idle (h : x.event? = none) : eventful (x :: rest) = eventful rest :=
  List.filter_cons_of_neg (by simp [h])

theorem eventful_cons_event {ev : Event} (h : x.event? = some ev) :
    eventful (x :: rest) = x :: eventful rest :=
  List.filter_cons_of_pos (by simp [h])

/-- An idle edge clears the outputs and does nothing else (R96). -/
theorem edge_idle (h : x.event? = none) : edge x r = r.clearOutputs := by
  rw [edge_eq, h]

end Idle

/-- Leaving out the idle edges keeps the reports. -/
theorem edgeReports_eventful {p : Params} (trace : List Pins) (r : Registers p) :
    edgeReports trace.length trace r = edgeReports (eventful trace).length (eventful trace) r := by
  induction trace generalizing r with
  | nil => rfl
  | cons x rest ih =>
    cases hx : x.event? with
    | none =>
      rw [eventful_cons_idle rest hx, List.length_cons, edgeReports_cons, edge_idle r hx,
        r.reports_clearOutputs, List.nil_append, r.clearOutputs_kept.edgeReports_eq, ih]
    | some ev =>
      rw [eventful_cons_event rest hx, List.length_cons, List.length_cons, edgeReports_cons, edgeReports_cons, ih]

/-- Leaving out the idle edges keeps what a later operation can read. -/
theorem edges_sameKept_eventful {p : Params} (trace : List Pins) (r : Registers p) :
    (edges trace.length trace r).SameKept (edges (eventful trace).length (eventful trace) r) := by
  induction trace generalizing r with
  | nil => exact .refl r
  | cons x rest ih =>
    cases hx : x.event? with
    | none =>
      rw [eventful_cons_idle rest hx, List.length_cons, edges_cons, edge_idle r hx]
      exact (r.clearOutputs_kept.symm.after_edges rest.length rest).trans (ih r)
    | some ev =>
      rw [eventful_cons_event rest hx, List.length_cons, List.length_cons, edges_cons, edges_cons]
      exact ih _

/-- A run over its whole input uses the input up. -/
theorem run_whole_input (s : State) (trace : List Pins) :
    core.run trace.length { s with input := trace } =
      .next { s with regs := edges trace.length trace s.regs, input := [] } := by
  rw [run_eq, List.drop_length]

/-- Settles O28, by induction on the trace: an idle edge changes output registers only, and nothing reads those. -/
theorem idleEdgesDoNotMatter : Obligations.IdleEdgesDoNotMatter := by
  intro s trace
  refine ⟨?_, _, _, run_whole_input s trace, run_whole_input s _, edges_sameKept_eventful trace s.regs⟩
  rw [reportsOver_eq, reportsOver_eq]
  exact edgeReports_eventful trace s.regs

/-! ## The block refines the document's decoder (R2) -/

/-- A fraction code is bit 7 over bit 6 of its byte (R64). -/
theorem fracCodeOf_eq_bits (b : Byte) :
    fracCodeOf b = BitVec.ofBool (b.getLsbD 7) ++ BitVec.ofBool (b.getLsbD 6) := by
  apply BitVec.eq_of_getLsbD_eq
  intro i hi
  rw [fracCodeOf, BitVec.getLsbD_extractLsb', BitVec.getLsbD_append]
  obtain rfl | rfl : i = 0 ∨ i = 1 := by omega
  · simp
  · simp

/-- The hundredths of the mux are those of the document (R65). -/
theorem hundredths_fracCodeOf (b : Byte) : 100 * (fracCodeOf b).toNat / 4 = fractionOfByte b := by
  rw [fracCodeOf_eq_bits, fractionOfByte]
  cases b.getLsbD 7 <;> cases b.getLsbD 6 <;> rfl

/-- The simulation relation: the block holds the reference decoder's byte, and its counter is the decoder's
modulo `2^SEQ_W` (R22, R23). -/
structure Registers.Represents {p : Params} (r : Registers p) (held : Option Byte) (n : Nat) : Prop where
  held : r.heldByte = held
  seq : r.seq.toNat = n % 2 ^ p.seqW

section Represents
variable {p : Params} {r : Registers p} {held : Option Byte} {n : Nat}

theorem Registers.represents_self (r : Registers p) : r.Represents r.heldByte r.seq.toNat :=
  ⟨rfl, (Nat.mod_eq_of_lt r.seq.isLt).symm⟩

theorem Registers.represents_reset (p : Params) : (Registers.reset p).Represents none 0 :=
  ⟨rfl, by simp⟩

theorem Registers.heldByte_awaitingInteger (h : r.fsm = .awaitingInteger) : r.heldByte = none := by
  simp [Registers.heldByte, Phase.bit, h]

theorem Registers.heldByte_awaitingFraction (h : r.fsm = .awaitingFraction) : r.heldByte = some r.msbHold := by
  simp [Registers.heldByte, Phase.bit, h]

theorem Registers.Represents.clearOutputs (h : r.Represents held n) : r.clearOutputs.Represents held n :=
  ⟨h.held, h.seq⟩

theorem Registers.Represents.takeStreamError (h : r.Represents held n) :
    r.takeStreamError.Represents none n :=
  ⟨rfl, h.seq⟩

/-- The phase an error reports says whether a frame is in progress (R70). -/
theorem Registers.Represents.isSome_held (h : r.Represents held n) : held.isSome = r.fsm.bit := by
  rw [← h.held, Registers.heldByte]
  cases r.fsm <;> rfl

theorem Registers.Represents.holdByte (h : r.Represents held n) (b : Byte) :
    ({ r.clearOutputs with msbHold := b, fsm := .awaitingFraction } : Registers p).Represents (some b) n :=
  ⟨rfl, h.seq⟩

/-- An emission leaves no byte held and counts one Reading (R80). -/
theorem Registers.Represents.emit (h : r.Represents held n) (b : Byte) (c : FracCode) :
    ({ r.emit b c with fsm := .awaitingInteger } : Registers p).Represents none (n + 1) where
  held := rfl
  seq := by
    change (seqNext r.seq).toNat = _
    rw [seqNext_toNat p.seqW_ge, h.seq, Nat.mod_add_mod]

/-- An emission shows the reference decoder's Reading, its number modulo `2^SEQ_W` (R69, R80). -/
theorem Registers.Represents.reports_emit (h : r.Represents held n) (b : Byte) (c : FracCode) :
    ({ r.emit b c with fsm := .awaitingInteger } : Registers p).reports =
      [Report.wrapSeq p.seqW (.reading
        { integerPart := b.toInt, fractionHundredths := 100 * c.toNat / 4, sequenceNumber := n })] := by
  change ((r.emit b c).reading?.map Report.reading).toList ++ [] = _
  rw [Registers.reading_emit, h.seq]
  rfl

end Represents

/-- The simulation: registers that represent a state of the reference decoder report what it reports. -/
theorem edgeReports_of_represents {p : Params} (input : List Pins) {r : Registers p} {held : Option Byte} {n : Nat}
    (h : r.Represents held n) :
    edgeReports input.length input r = (referenceReports held n input).map (Report.wrapSeq p.seqW) := by
  induction input generalizing r held n with
  | nil => rfl
  | cons x rest ih =>
    rw [List.length_cons, edgeReports_cons, edge_eq, referenceReports]
    match x.event? with
    | none => exact ih h.clearOutputs
    | some .reset => exact ih (Registers.represents_reset p)
    | some .error =>
      simp only [List.map_cons, h.isSome_held]
      exact congrArg _ (ih h.takeStreamError)
    | some (.byte b m) =>
      cases hfsm : r.fsm with
      | awaitingFraction =>
        obtain rfl : some r.msbHold = held := (Registers.heldByte_awaitingFraction hfsm).symm.trans h.held
        simp only [if_true, List.map_cons]
        rw [h.reports_emit, hundredths_fracCodeOf, ih (h.emit _ _)]
        rfl
      | awaitingInteger =>
        obtain rfl : none = held := (Registers.heldByte_awaitingInteger hfsm).symm.trans h.held
        cases m with
        | true => exact ih (h.holdByte b)
        | false =>
          simp only [reduceCtorEq, if_false, List.map_cons, Bool.false_eq_true]
          rw [h.reports_emit, ih (h.emit _ _)]
          rfl

/-- Settles O30: every state represents the reference decoder started with its frame and counter. -/
theorem blockRefinesDocumentDecoder : Obligations.BlockRefinesDocumentDecoder := by
  intro s
  rw [reportsOver_eq]
  exact edgeReports_of_represents s.input s.regs.represents_self

end Sys2Proof.Machine

/-! Proofs of the statements of 10_state.md: what each operation writes to the registers, the invariants R36, that
a stale held byte is never seen, and what several instances share and the ports show. -/

namespace Sys2Proof.Machine

/-! ## The phase (R21) -/

/-- The phase after an operation, given the phase before it: the table of R21. -/
def phaseAfter (phase : Phase) : Op → Phase
  | .idle => phase
  | .int2 => .awaitingFraction
  | .reset | .serr | .int1 | .frac => .awaitingInteger

section Phase
variable {p : Params} {i : Instr}

theorem regsAfter_fsm (i : Instr) (r : Registers p) : (regsAfter i r).fsm = phaseAfter r.fsm i.op := by
  cases i <;> rfl

/-- INT1 and INT2 have bit `s` of their event word clear (R68). -/
theorem phaseBit_of_int (h : i.op = .int1 ∨ i.op = .int2) : i.phaseBit = false := by
  cases i with
  | int1 | int2 => rfl
  | reset | idle | serr | frac => simp [Instr.op] at h

/-- FRAC has bit `s` of its event word set (R68). -/
theorem phaseBit_of_frac (h : i.op = .frac) : i.phaseBit = true := by
  cases i with
  | frac => rfl
  | reset | idle | serr | int1 | int2 => cases h

theorem phaseBit_decode_eventWord (x : Pins) (phase : Phase) : (decode (eventWord x phase)).phaseBit = phase.bit :=
  phaseBit_decode_eventWordOf ..

/-- INT1 and INT2 are selected in AwaitingIntegerByte only. -/
theorem awaitingInteger_of_selects_int {x : Pins} {phase : Phase}
    (h : (decode (eventWord x phase)).op = .int1 ∨ (decode (eventWord x phase)).op = .int2) :
    phase = .awaitingInteger := by
  have hbit : phase.bit = false := (phaseBit_decode_eventWord x phase).symm.trans (phaseBit_of_int h)
  cases phase with
  | awaitingInteger => rfl
  | awaitingFraction => cases hbit

/-- FRAC is selected in AwaitingFractionByte only. -/
theorem awaitingFraction_of_selects_frac {x : Pins} {phase : Phase}
    (h : (decode (eventWord x phase)).op = .frac) : phase = .awaitingFraction :=
  phase.bit_eq_true_iff.mp ((phaseBit_decode_eventWord x phase).symm.trans (phaseBit_of_frac h))

end Phase

/-- Settles O19: the table is `phaseAfter`, and bit `s` of the event word is the phase. -/
theorem phaseTransitionTable : Obligations.PhaseTransitionTable := by
  refine ⟨rfl, fun i s => ⟨_, exec_eq i s, ?_⟩,
    fun s => ⟨awaitingInteger_of_selects_int, awaitingFraction_of_selects_frac⟩⟩
  rw [regsAfter_fsm]
  refine ⟨fun h => ?_, fun h => ?_, ?_⟩
  · rw [h, phaseAfter]
  · rw [h, phaseAfter]
  · rintro (h | h | h | h) <;> rw [h, phaseAfter]

/-! ## What the operations leave, by kind: RESET, the two emissions, those that keep the counter -/

section Kinds
variable {p : Params} {r r' : Registers p} {i : Instr}

/-- As the counter sees them, the operations are of three kinds (R23). -/
theorem op_reset_or_emits_or_keeps (i : Instr) :
    i.op = .reset ∨ (i.op = .int1 ∨ i.op = .frac) ∨ (i.op = .idle ∨ i.op = .serr ∨ i.op = .int2) := by
  cases i <;> simp [Instr.op]

theorem regsAfter_of_reset (h : i.op = .reset) (r : Registers p) : regsAfter i r = Registers.reset p := by
  cases i with
  | reset => exact r.applyReset_eq_reset
  | idle | serr | int1 | int2 | frac => cases h

theorem regsAfter_of_serr (h : i.op = .serr) (r : Registers p) : regsAfter i r = r.takeStreamError := by
  cases i with
  | serr => rfl
  | reset | idle | int1 | int2 | frac => cases h

/-- `Emitted` leaves `fsm` to the caller of `Emit` (R80). -/
theorem Registers.Emitted.withFsm {n : Int} {c : Nat} (h : r.Emitted r' n c) (phase : Phase) :
    r.Emitted { r' with fsm := phase } n c :=
  { h with }

/-- INT1 and FRAC emit a Reading of some byte and some fraction code (R81, R83). -/
theorem regsAfter_emitted (h : i.op = .int1 ∨ i.op = .frac) (r : Registers p) :
    ∃ (b : Byte) (c : FracCode), r.Emitted (regsAfter i r) b.toInt c.toNat := by
  cases i with
  | int1 b => exact ⟨b, 0, (r.emit_emitted b 0).withFsm _⟩
  | frac _ code _ => exact ⟨r.msbHold, code, (r.emit_emitted r.msbHold code).withFsm _⟩
  | reset | idle | serr | int2 => simp [Instr.op] at h

theorem regsAfter_counter_of_keeps (h : i.op = .idle ∨ i.op = .serr ∨ i.op = .int2) (r : Registers p) :
    (regsAfter i r).seq = r.seq ∧ (regsAfter i r).seqWrapped = r.seqWrapped := by
  cases i with
  | idle | serr | int2 => exact ⟨rfl, rfl⟩
  | reset | int1 | frac => simp [Instr.op] at h

theorem Registers.reset_zero (p : Params) : (Registers.reset p).OutputsZero :=
  ⟨rfl, rfl, rfl, rfl, rfl, rfl, rfl, rfl⟩

/-- RESET, IDLE and INT2 show nothing (R82, R95, R96). -/
theorem regsAfter_outputsZero (h : i.op = .reset ∨ i.op = .idle ∨ i.op = .int2) (r : Registers p) :
    (regsAfter i r).OutputsZero := by
  cases i with
  | reset => exact Registers.reset_zero p
  | idle => exact r.clearOutputs_zero
  | int2 => exact { r.clearOutputs_zero with }
  | serr | int1 | frac => simp [Instr.op] at h

end Kinds

/-! ## The counter and its flag (R23, R24) -/

/-- Settles O17: RESET clears the counter, `Emit` increments it, the other operations keep it. -/
theorem sequenceCounterWrites : Obligations.SequenceCounterWrites := by
  intro i s
  refine ⟨_, exec_eq i s, fun h => ?_, fun h => ?_, fun h => (regsAfter_counter_of_keeps h s.regs).1⟩
  · rw [regsAfter_of_reset h]
    simp
  · obtain ⟨_, _, hemit⟩ := regsAfter_emitted h s.regs
    exact ⟨hemit.seq, hemit.rdSeq⟩

section Wrap
variable {p : Params} {i : Instr} (r : Registers p)

/-- What each operation writes to `seq_wrapped` (R24). -/
theorem regsAfter_seqWrapped_iff (i : Instr) : (regsAfter i r).seqWrapped = true ↔ i.op ≠ .reset ∧
    (r.seqWrapped = true ∨ (i.op = .int1 ∨ i.op = .frac) ∧ r.seq.toNat = 2 ^ p.seqW - 1) := by
  obtain hreset | hemits | hkeeps := op_reset_or_emits_or_keeps i
  · simp [regsAfter_of_reset hreset, hreset]
  · obtain ⟨_, _, hemit⟩ := regsAfter_emitted hemits r
    rw [hemit.seqWrapped]
    obtain h | h := hemits <;> simp [h]
  · rw [(regsAfter_counter_of_keeps hkeeps r).2]
    obtain h | h | h := hkeeps <;> simp [h]

/-- The emission that wraps the counter shows its top value and leaves 0 (R24). -/
theorem regsAfter_wraps (h : i.op = .int1 ∨ i.op = .frac) (htop : r.seq.toNat = 2 ^ p.seqW - 1) :
    (regsAfter i r).seq.toNat = 0 ∧ (regsAfter i r).rdSeq.toNat = 2 ^ p.seqW - 1 := by
  obtain ⟨_, _, hemit⟩ := regsAfter_emitted h r
  refine ⟨?_, hemit.rdSeq ▸ htop⟩
  rw [hemit.seq, htop, Nat.sub_add_cancel Nat.one_le_two_pow, Nat.mod_self]

end Wrap

/-- Settles O18, by the kind of the operation. -/
theorem wrapFlagIsSticky : Obligations.WrapFlagIsSticky :=
  fun i s => ⟨_, exec_eq i s, regsAfter_seqWrapped_iff s.regs i, regsAfter_wraps s.regs⟩

/-! ## The invariants R36 (a) to (g) -/

section Invariants
variable {p : Params} {r r' : Registers p}

/-- Outputs that show nothing meet every invariant, in either phase. -/
theorem Registers.OutputsZero.inv (h : r.OutputsZero) : r.Inv where
  notBothValid := by simp [h.rdValid]
  readingClear _ := ⟨h.rdInt, h.rdFracCode, h.rdFracCc, h.rdSeq⟩
  errorClear _ := ⟨h.errCode, h.errPhase⟩
  errorCode := by simp [h.errValid]
  hundredths := by simp [h.rdFracCc, h.rdFracCode]
  integerRange := by simp [h.rdInt]
  signBits := by simp [h.rdInt]
  nextSeq := by simp [h.rdValid]
  nextSeqUnwrapped := by simp [h.rdValid]
  midFrameQuiet _ := ⟨h.rdValid, h.errValid⟩

theorem Registers.inv_takeStreamError (r : Registers p) : r.takeStreamError.Inv where
  notBothValid := by simp
  readingClear _ := ⟨rfl, rfl, rfl, rfl⟩
  errorClear := by simp
  errorCode _ := rfl
  hundredths := rfl
  integerRange := by simp
  signBits := by simp
  nextSeq := by simp
  nextSeqUnwrapped := by simp
  midFrameQuiet := by simp

/-- An emitted integer part is its byte sign-extended: no other word of the width has the byte's value (R63). -/
theorem Registers.Emitted.rdInt_eq_sext {b : Byte} {c : Nat} (h : r.Emitted r' b.toInt c) :
    r'.rdInt = sext p.intW b :=
  BitVec.eq_of_toInt_eq (h.rdInt.trans (sext_toInt p.intW_ge b).symm)

/-- From bit 7 up, a sign-extended byte repeats its bit 7 (R63). -/
theorem sext_getLsbD_sign {n i : Nat} (h7 : 7 ≤ i) (hi : i < n) (b : Byte) :
    (sext n b).getLsbD i = b.getLsbD 7 := by
  rw [sext_getLsbD hi]
  split
  · rw [show i = 7 by omega]
  · rfl

/-- If the counter did not wrap, its increment is that of the integers (R24). -/
theorem Registers.Emitted.seq_of_unwrapped {n : Int} {c : Nat} (h : r.Emitted r' n c)
    (hwrapped : r'.seqWrapped = false) : r'.seq.toNat = r.seq.toNat + 1 := by
  have htop : r.seq.toNat ≠ 2 ^ p.seqW - 1 := fun htop => by
    simp [h.seqWrapped.mpr (.inr htop)] at hwrapped
  have hlt := r.seq.isLt
  rw [h.seq, Nat.mod_eq_of_lt (by omega)]

/-- An emission of a byte that ends its frame meets every invariant. -/
theorem Registers.Emitted.inv {b : Byte} {c : Nat} (h : r.Emitted r' b.toInt c) (hfsm : r'.fsm = .awaitingInteger) :
    r'.Inv where
  notBothValid := by simp [h.errValid]
  readingClear := by simp [h.rdValid]
  errorClear _ := ⟨h.errCode, h.errPhase⟩
  errorCode := by simp [h.errValid]
  hundredths := by rw [h.rdFracCc, h.rdFracCode]; omega
  integerRange := by
    rw [h.rdInt]
    exact ⟨BitVec.le_toInt b, Int.le_sub_one_of_lt BitVec.toInt_lt⟩
  signBits i h7 hi := by
    rw [h.rdInt_eq_sext, sext_getLsbD_sign h7 hi, sext_getLsbD_sign le_rfl (h7.trans_lt hi)]
  nextSeq _ := by rw [h.seq, h.rdSeq]
  nextSeqUnwrapped _ hwrapped := by rw [h.seq_of_unwrapped hwrapped, h.rdSeq]
  midFrameQuiet := by simp [hfsm]

/-- No operation needs the invariants before it to leave them behind. -/
theorem regsAfter_inv (i : Instr) (r : Registers p) : (regsAfter i r).Inv := by
  have emits_inv (h : i.op = .int1 ∨ i.op = .frac) : (regsAfter i r).Inv := by
    obtain ⟨_, _, hemit⟩ := regsAfter_emitted h r
    refine hemit.inv ?_
    rw [regsAfter_fsm]
    obtain h | h := h <;> rw [h, phaseAfter]
  cases hop : i.op with
  | reset => exact (regsAfter_outputsZero (.inl hop) r).inv
  | idle => exact (regsAfter_outputsZero (.inr (.inl hop)) r).inv
  | int2 => exact (regsAfter_outputsZero (.inr (.inr hop)) r).inv
  | serr => exact regsAfter_of_serr hop r ▸ r.inv_takeStreamError
  | int1 => exact emits_inv (.inl hop)
  | frac => exact emits_inv (.inr hop)

end Invariants

/-- Settles O15: every operation establishes the invariants, whatever the registers before it. -/
theorem everyStepEstablishesInvariants : Obligations.EveryStepEstablishesInvariants :=
  fun s => ⟨_, step_eq s, regsAfter_inv _ s.regs⟩

/-- Settles O16: after reset the outputs are zero. -/
theorem resetMeetsInvariants : Obligations.ResetMeetsInvariants :=
  fun p _ => (Registers.reset_zero p).inv

/-! ## The outputs are pulses (R25, R26) -/

section Pulses
variable {p : Params} (i : Instr) (r : Registers p)

/-- A Reading is shown after the two emissions only (R25). -/
theorem regsAfter_rdValid_iff : (regsAfter i r).rdValid = true ↔ i.op = .int1 ∨ i.op = .frac := by
  cases i <;> simp [regsAfter, Instr.op]

/-- An error is shown after SERR only (R26). -/
theorem regsAfter_errValid_iff : (regsAfter i r).errValid = true ↔ i.op = .serr := by
  cases i <;> simp [regsAfter, Instr.op]

end Pulses

/-- Settles O21: that the fields are zero where nothing is shown is R36 (b) and (c). -/
theorem outputsArePulses : Obligations.OutputsArePulses :=
  fun i s => ⟨_, exec_eq i s, regsAfter_rdValid_iff i s.regs, regsAfter_errValid_iff i s.regs,
    (regsAfter_inv i s.regs).readingClear, (regsAfter_inv i s.regs).errorClear⟩

/-! ## The held byte (R22) -/

section Held
variable {p : Params} {i : Instr}

theorem regsAfter_msbHold_of_keeps (hreset : i.op ≠ .reset) (hint2 : i.op ≠ .int2) (r : Registers p) :
    (regsAfter i r).msbHold = r.msbHold := by
  cases i with
  | reset => exact absurd rfl hreset
  | int2 => exact absurd rfl hint2
  | idle | serr | int1 | frac => rfl

/-- Only FRAC reads `msb_hold`: after any other operation, another byte in it before shows up in it alone. -/
theorem regsAfter_setHeld (h : i.op ≠ .frac) (r : Registers p) (x : Byte) :
    regsAfter i { r with msbHold := x } =
      { regsAfter i r with msbHold := (regsAfter i { r with msbHold := x }).msbHold } := by
  cases i with
  | frac => exact absurd rfl h
  | reset | idle | serr | int1 | int2 => rfl

theorem exec_setHeld (h : i.op ≠ .frac) (s : State) (x : Byte) : ∃ y : Byte,
    exec i { s with regs := { s.regs with msbHold := x } } =
      .next { s with regs := { regsAfter i s.regs with msbHold := y } } := by
  refine ⟨(regsAfter i { s.regs with msbHold := x }).msbHold, ?_⟩
  rw [← regsAfter_setHeld h]
  exact exec_eq i _

end Held

/-- Settles O20, by the operation. -/
theorem heldByteWrittenAndReadWhereSaid : Obligations.HeldByteWrittenAndReadWhereSaid := by
  intro i s x
  refine ⟨_, exec_eq i s, fun h => ?_, ?_, fun hreset hint2 => regsAfter_msbHold_of_keeps hreset hint2 s.regs,
    fun h => exec_setHeld h s x⟩
  · rw [regsAfter_of_reset h, Registers.reset_msbHold]
  · rintro b rfl
    rfl

/-! ## A stale held byte is never seen (R34) -/

/-- The registers agree, but for a held byte that is of no frame in progress. -/
structure Registers.SameButStale {p : Params} (r r' : Registers p) : Prop where
  others : r' = { r with msbHold := r'.msbHold }
  held : r.fsm = .awaitingFraction → r'.msbHold = r.msbHold

section Stale
variable {p : Params} {r r' : Registers p}

theorem Registers.SameButStale.refl (r : Registers p) : r.SameButStale r := ⟨rfl, fun _ => rfl⟩

theorem Registers.sameButStale_setHeld (h : r.fsm = .awaitingInteger) (x : Byte) :
    r.SameButStale { r with msbHold := x } :=
  ⟨rfl, by simp [h]⟩

theorem Registers.SameButStale.outputs_eq (h : r.SameButStale r') : r.outputs = r'.outputs :=
  (congrArg Registers.outputs h.others).symm

theorem Registers.SameButStale.seq_eq (h : r.SameButStale r') : r.seq = r'.seq :=
  (congrArg Registers.seq h.others).symm

/-- Inside a frame no byte is stale. -/
theorem Registers.SameButStale.eq_of_awaitingFraction (h : r.SameButStale r') (hfsm : r.fsm = .awaitingFraction) :
    r' = r :=
  h.others.trans (by rw [h.held hfsm])

/-- Only INT2 begins a frame, and it writes the held byte (R82). -/
theorem regsAfter_msbHold_of_begins {i : Instr} (hfsm : r.fsm = .awaitingInteger)
    (hbegins : (regsAfter i r).fsm = .awaitingFraction) (x : Byte) :
    (regsAfter i { r with msbHold := x }).msbHold = (regsAfter i r).msbHold := by
  cases i with
  | int2 => rfl
  | idle => simp [regsAfter, hfsm] at hbegins
  | reset | serr | int1 | frac => cases hbegins

/-- An edge never brings a stale byte to light: outside a frame FRAC cannot be selected. -/
theorem Registers.SameButStale.after_edge (h : r.SameButStale r') (x : Pins) :
    (edge x r).SameButStale (edge x r') := by
  cases hfsm : r.fsm with
  | awaitingFraction =>
    rw [h.eq_of_awaitingFraction hfsm]
    exact .refl _
  | awaitingInteger =>
    have hop : (decode (eventWord x r.fsm)).op ≠ .frac := fun hfrac =>
      nomatch hfsm.symm.trans (awaitingFraction_of_selects_frac hfrac)
    rw [h.others]
    exact ⟨regsAfter_setHeld hop r _, fun hbegins => regsAfter_msbHold_of_begins hfsm hbegins _⟩

theorem Registers.SameButStale.after_edges (h : r.SameButStale r') (k : Nat) (input : List Pins) :
    (edges k input r).SameButStale (edges k input r') := by
  induction k generalizing input r r' with
  | zero => exact h
  | succ k ih => exact ih (h.after_edge _) input.tail

end Stale

/-- Settles O34: the two runs agree but for a stale byte after every edge, and no port shows the held byte. -/
theorem staleHeldByteIsUnobservable : Obligations.StaleHeldByteIsUnobservable := by
  intro s x k hfsm
  have h := (Registers.sameButStale_setHeld hfsm x).after_edges k s.input
  exact ⟨_, _, run_eq k s, run_eq k _, h.outputs_eq, h.seq_eq⟩

/-! ## The mode pin (R29) and the pin `rst` (R33) -/

section Pins
variable {p : Params} {r : Registers p} {x : Pins}

theorem Pins.event?_of_rst (h : x.rst = true) : x.event? = some .reset := by
  rw [Pins.event?, if_pos h]

/-- The pins present a data byte (R12). -/
theorem Pins.event?_of_byte (hrst : x.rst = false) (hvalid : x.inValid = true) (herr : x.inErr = false) :
    x.event? = some (.byte x.inData x.cfgTwoByte) := by
  simp [Pins.event?, hrst, hvalid, herr]

/-- Where no data byte is presented the event does not depend on the mode pin (R12). -/
theorem Pins.event?_setMode (h : ¬ (x.rst = false ∧ x.inValid = true ∧ x.inErr = false)) (m : Bool) :
    { x with cfgTwoByte := m }.event? = x.event? := by
  cases hrst : x.rst with
  | true => simp [Pins.event?, hrst]
  | false =>
    cases hvalid : x.inValid with
    | false => simp [Pins.event?, hrst, hvalid]
    | true =>
      cases herr : x.inErr with
      | true => simp [Pins.event?, hrst, hvalid, herr]
      | false => exact absurd ⟨hrst, hvalid, herr⟩ h

theorem edge_of_rst (h : x.rst = true) (r : Registers p) : edge x r = Registers.reset p := by
  rw [edge_eq, Pins.event?_of_rst h]

/-- A data byte in AwaitingFractionByte ends the frame, whatever its mode (R83). -/
theorem edge_byte_awaitingFraction {b : Byte} {m : Bool} (h : x.event? = some (.byte b m))
    (hfsm : r.fsm = .awaitingFraction) :
    edge x r = { r.emit r.msbHold (fracCodeOf b) with fsm := .awaitingInteger } := by
  rw [edge_eq, h]
  exact if_pos hfsm

/-- A data byte in AwaitingIntegerByte leaves the phase its mode says (R81, R82). -/
theorem edge_byte_awaitingInteger_fsm {b : Byte} {m : Bool} (h : x.event? = some (.byte b m))
    (hfsm : r.fsm = .awaitingInteger) : (edge x r).fsm = Phase.ofBit m := by
  rw [edge_eq, h]
  cases m <;> simp [hfsm, Phase.ofBit]

/-- The mode pin is read at a data byte in AwaitingIntegerByte only. -/
theorem edge_setMode
    (h : ¬ (x.rst = false ∧ x.inValid = true ∧ x.inErr = false ∧ r.fsm = .awaitingInteger)) (m : Bool) :
    edge { x with cfgTwoByte := m } r = edge x r := by
  by_cases hbyte : x.rst = false ∧ x.inValid = true ∧ x.inErr = false
  · obtain ⟨hrst, hvalid, herr⟩ := hbyte
    cases hfsm : r.fsm with
    | awaitingInteger => exact absurd ⟨hrst, hvalid, herr, hfsm⟩ h
    | awaitingFraction =>
      rw [edge_byte_awaitingFraction (Pins.event?_of_byte hrst hvalid herr) hfsm]
      exact edge_byte_awaitingFraction (Pins.event?_of_byte (x := { x with cfgTwoByte := m }) hrst hvalid herr) hfsm
  · rw [edge_eq, edge_eq, Pins.event?_setMode hbyte]

end Pins

theorem step_cons (s : State) (x : Pins) (rest : List Pins) :
    step { s with input := x :: rest } = .next { s with regs := edge x s.regs, input := rest } :=
  step_edge _

/-- Settles O22, by the event the pins present and the phase. -/
theorem modePinExaminedAtIntegerByteOnly : Obligations.ModePinExaminedAtIntegerByteOnly := by
  refine ⟨fun s x m rest h => ?_, fun s x rest ⟨hrst, hvalid, herr, hfsm⟩ => ⟨_, step_cons s x rest, ?_⟩⟩
  · rw [step_cons, step_cons, edge_setMode h]
  · rw [edge_byte_awaitingInteger_fsm (Pins.event?_of_byte hrst hvalid herr) hfsm, ← Phase.bit_eq_true_iff,
      Phase.bit_ofBit]

/-- Settles O2: the edge is RESET, and its registers are the reset values. -/
theorem resetEdgeGivesResetValues : Obligations.ResetEdgeGivesResetValues := by
  refine ⟨fun s hrst => ⟨Registers.reset s.params, ?_, rfl, rfl, rfl, rfl, Registers.reset_zero _, rfl⟩,
    fun p _ => ⟨rfl, rfl, rfl, rfl, Registers.reset_zero p⟩⟩
  rw [step_edge, edge_of_rst hrst]

/-! ## Instances and ports (R27, R28, R35) -/

/-- An edge of block `k` of a system replaces it by the state its own step leaves (R35). -/
theorem stepInstance_eq {sys : System} {k : Nat} {s : State} (h : sys[k]? = some s) :
    stepInstance k sys = .next (sys.set k (stepState s)) := by
  simp only [stepInstance, h, step_eq]

/-- Settles O40: the next system is the old one with one place set. -/
theorem instancesShareNothing : Obligations.InstancesShareNothing := by
  intro sys k s h
  obtain ⟨hk, -⟩ := List.getElem?_eq_some_iff.mp h
  exact ⟨_, _, step_eq s, stepInstance_eq h, List.getElem?_set_self hk, List.length_set,
    fun j hj => List.getElem?_set_ne hj.symm⟩

/-- Settles O41: every port but `busy` is a register. -/
theorem outputPortsShowRegisters : Obligations.OutputPortsShowRegisters :=
  fun _ r => ⟨r.fsm.bit_eq_true_iff, rfl, rfl, rfl, rfl, rfl, rfl, rfl, rfl, rfl⟩

end Sys2Proof.Machine

/-! Proofs of the statements of 20_memory.md: in what order Readings are numbered, and how bytes are paired. -/

namespace Sys2Proof.Machine

/-! ## Readings are numbered consecutively (R48, R36 (h)) -/

theorem readingsOf_append (a b : List Report) : readingsOf (a ++ b) = readingsOf a ++ readingsOf b := by
  induction a with
  | nil => rfl
  | cons report rest ih =>
    cases report with
    | reading rd => exact congrArg (rd :: ·) ih
    | error => exact ih

/-- The sequence numbers of the Readings among reports, in order. -/
def sequenceNumbersOf (reports : List Report) : List Nat := (readingsOf reports).map Reading.sequenceNumber

theorem sequenceNumbersOf_append (a b : List Report) :
    sequenceNumbersOf (a ++ b) = sequenceNumbersOf a ++ sequenceNumbersOf b := by
  simp only [sequenceNumbersOf, readingsOf_append, List.map_append]

section Numbering
variable {p : Params}

/-- The one number an output port can show is `rd_seq`, in a cycle with `rd_valid = 1` (R69). -/
theorem Registers.sequenceNumbersOf_reports (r : Registers p) :
    sequenceNumbersOf r.reports = if r.rdValid then [r.rdSeq.toNat] else [] := by
  rw [Registers.reports, Registers.reading?, Registers.error?]
  cases r.rdValid <;> cases r.errValid <;> rfl

/-- Without `rst` the operation selected is not RESET (R74). -/
theorem decode_eventWord_op_ne_reset {x : Pins} (hrst : x.rst = false) (phase : Phase) :
    (decode (eventWord x phase)).op ≠ .reset := by
  rw [eventWord, decode_eventWordOf, hrst]
  cases x.inValid <;> cases x.inErr <;> cases phase <;> cases x.cfgTwoByte <;> simp [Instr.op, Phase.bit]

/-- Only RESET clears the sticky flag (R24). -/
theorem seqWrapped_of_edge {x : Pins} {r : Registers p} (hrst : x.rst = false)
    (hafter : (edge x r).seqWrapped = false) : r.seqWrapped = false := by
  by_contra hbefore
  have hset : (edge x r).seqWrapped = true :=
    (regsAfter_seqWrapped_iff r _).mpr
      ⟨decode_eventWord_op_ne_reset hrst _, .inl (Bool.eq_true_of_not_eq_false hbefore)⟩
  simp [hset] at hafter

theorem seqWrapped_of_edges {trace : List Pins} {r : Registers p} (hrst : ∀ x ∈ trace, x.rst = false)
    (hafter : (edges trace.length trace r).seqWrapped = false) : r.seqWrapped = false := by
  induction trace generalizing r with
  | nil => exact hafter
  | cons x rest ih =>
    obtain ⟨hx, hrest⟩ := List.forall_mem_cons.mp hrst
    exact seqWrapped_of_edge hx (ih hrest hafter)

/-- An edge that neither resets nor wraps the counter shows the numbers from `seq` before it to `seq` after it:
one for an emission, none else. -/
theorem range_seq_edge {x : Pins} {r : Registers p} (hrst : x.rst = false)
    (hunwrapped : (edge x r).seqWrapped = false) :
    List.range r.seq.toNat ++ sequenceNumbersOf (edge x r).reports = List.range (edge x r).seq.toNat := by
  rw [Registers.sequenceNumbersOf_reports]
  rw [edge] at hunwrapped ⊢
  obtain hreset | hemits | hkeeps := op_reset_or_emits_or_keeps (decode (eventWord x r.fsm))
  · exact absurd hreset (decode_eventWord_op_ne_reset hrst _)
  · obtain ⟨_, _, hemit⟩ := regsAfter_emitted hemits r
    rw [if_pos hemit.rdValid, hemit.rdSeq, hemit.seq_of_unwrapped hunwrapped, List.range_succ]
  · have hquiet : ¬ (regsAfter (decode (eventWord x r.fsm)) r).rdValid = true := by
      rw [regsAfter_rdValid_iff]
      obtain h | h | h := hkeeps <;> simp [h]
    rw [if_neg hquiet, List.append_nil, (regsAfter_counter_of_keeps hkeeps r).1]

/-- R36 (h) from any registers: the numbers below `seq` and then those of the run are the numbers below the
`seq` the run leaves. -/
theorem range_seq_edges {trace : List Pins} {r : Registers p} (hrst : ∀ x ∈ trace, x.rst = false)
    (hunwrapped : (edges trace.length trace r).seqWrapped = false) :
    List.range r.seq.toNat ++ sequenceNumbersOf (edgeReports trace.length trace r) =
      List.range (edges trace.length trace r).seq.toNat := by
  induction trace generalizing r with
  | nil => exact List.append_nil _
  | cons x rest ih =>
    obtain ⟨hx, hrest⟩ := List.forall_mem_cons.mp hrst
    rw [List.length_cons, edges_cons] at hunwrapped ⊢
    rw [edgeReports_cons, sequenceNumbersOf_append, ← List.append_assoc,
      range_seq_edge hx (seqWrapped_of_edges hrest hunwrapped), ih hrest hunwrapped]

end Numbering

/-- Settles O31: `range_seq_edges` from reset, where no number is below `seq`. -/
theorem sequenceNumbersAreConsecutive : Obligations.SequenceNumbersAreConsecutive := by
  intro p trace hrst
  refine ⟨_, run_whole_input (State.resetWith p trace) trace, fun hunwrapped => ?_⟩
  rw [reportsOver_eq]
  exact range_seq_edges hrst hunwrapped

/-! ## Bytes are paired as they come (R43, R44) -/

/-- Between frames the document's decoder takes the bytes of a two-byte stream in pairs. -/
theorem referenceReports_twoByte (n : Nat) (bytes : List Byte) :
    referenceReports none n (bytes.map (Pins.ofByte · true)) = (pairedReadings n bytes).map Report.reading := by
  induction n, bytes using pairedReadings.induct with
  | case1 n a b rest ih => exact congrArg (Report.reading _ :: ·) ih
  | case2 short n hshort =>
    match short with
    | [] => rfl
    | [_] => rfl
    | a :: b :: rest => exact absurd rfl (hshort a b rest)

/-- The pairs are numbered from `n`, one number a pair. -/
theorem sequenceNumber_lt_of_mem_pairedReadings {n : Nat} {bytes : List Byte} {rd : Reading}
    (h : rd ∈ pairedReadings n bytes) : rd.sequenceNumber < n + bytes.length / 2 := by
  induction n, bytes using pairedReadings.induct with
  | case1 n a b rest ih =>
    rw [pairedReadings, List.mem_cons] at h
    simp only [List.length_cons]
    obtain rfl | h := h
    · simp only
      omega
    · have := ih h
      omega
  | case2 short n hshort => simp [pairedReadings] at h

/-- A counter of `w` bits shows a number below `2^w` as it is (R23). -/
theorem Report.wrapSeq_reading_of_lt {w : Nat} {rd : Reading} (h : rd.sequenceNumber < 2 ^ w) :
    Report.wrapSeq w (.reading rd) = .reading rd := by
  rw [Report.wrapSeq, Nat.mod_eq_of_lt h]

/-- Settles O32: the block reports what the document's decoder does, and no number is beyond the counter's top. -/
theorem bytesArePairedAsTheyCome : Obligations.BytesArePairedAsTheyCome := by
  intro s bytes hfsm hbound
  have hsim := blockRefinesDocumentDecoder { s with input := bytes.map (Pins.ofByte · true) }
  simp only [List.length_map] at hsim
  rw [hsim, Registers.heldByte_awaitingInteger hfsm, referenceReports_twoByte, List.map_map]
  refine List.map_congr_left fun rd hrd => Report.wrapSeq_reading_of_lt ?_
  exact (sequenceNumber_lt_of_mem_pairedReadings hrd).trans_le hbound

end Sys2Proof.Machine

/-! Proofs of the statements of 30_encoding.md: the event word and its operations, the two parts of a Reading, and
the lines of a trace. -/

namespace Sys2Proof

/-! ## Decode and encode (R67, R68, R71) -/

theorem decode_encode (i : Instr) : decode (encode i) = i := by
  cases i with
  | reset | idle | serr | int1 | int2 => exact decode_eventWordOf ..
  | frac m code rsv =>
    refine (decode_eventWordOf ..).trans ?_
    rw [fracCodeOf_append, reservedOf_append]
    rfl

/-- Whichever operation a word selects, the instruction carries the bits its row leaves open. -/
theorem encode_decode_eventWordOf (r v e s m : Bool) (d : Byte) :
    encode (decode (eventWordOf r v e s m d)) = eventWordOf r v e s m d := by
  rw [decode_eventWordOf]
  cases r
  case true => rfl
  cases v
  case false => rfl
  cases e
  case true => rfl
  cases s
  case true => exact congrArg (eventWordOf false true false true m) (fracCodeOf_append_reservedOf d)
  cases m <;> rfl

theorem encode_decode (w : EventWord) : encode (decode w) = w := by
  rw [← eventWordOf_fields w, encode_decode_eventWordOf]

/-- Settles O11: by the operation of the instruction, and by the fields of the word. -/
theorem decodeEncodeAgree : Obligations.DecodeEncodeAgree :=
  ⟨decode_encode, encode_decode⟩

/-- Settles O12: the decoder computes each instruction. -/
theorem writtenWordsDecode : Obligations.WrittenWordsDecode := by
  unfold Obligations.WrittenWordsDecode
  decide

/-! ## The operation is selected by bits 12:8 (R68) -/

/-- The event word whose bits 12:8 are the number `k` and whose data bits are 0. -/
def selectWord (k : Nat) : EventWord := BitVec.ofNat 13 (256 * k)

/-- Masking the data bits of a number away leaves its quotient by 256. -/
theorem ofNat_and_high (n : Nat) : BitVec.ofNat 13 n &&& 0x1F00 = selectWord (n / 256) := by
  apply BitVec.eq_of_getLsbD_eq
  intro i hi
  rw [selectWord, show (0x1F00 : EventWord) = BitVec.allOnes 5 ++ (0 : Byte) from rfl, show 256 = 2 ^ 8 from rfl,
    BitVec.getLsbD_and, BitVec.getLsbD_append, BitVec.getLsbD_allOnes, BitVec.getLsbD_ofNat, BitVec.getLsbD_ofNat,
    Nat.testBit_two_pow_mul, Nat.testBit_div_two_pow]
  by_cases h8 : i < 8
  · simp [h8]
  · simp [h8, show i - 8 < 5 by omega, show 8 ≤ i by omega]

theorem and_high_eq_selectWord (w : EventWord) : w &&& 0x1F00 = selectWord (w.toNat / 256) := by
  rw [← ofNat_and_high, BitVec.ofNat_toNat, BitVec.setWidth_eq]

/-- The operation the decoder selects, in the order of R74. -/
theorem decode_op (w : EventWord) : (decode w).op =
    if w.getLsbD 12 then .reset else if !w.getLsbD 11 then .idle else if w.getLsbD 10 then .serr
    else if w.getLsbD 9 then .frac else if w.getLsbD 8 then .int2 else .int1 := by
  simp only [decode, apply_ite Instr.op]
  rfl

/-- The decoder selects the operation without the data bits. -/
theorem decode_op_high (w : EventWord) : (decode w).op = (decode (w &&& 0x1F00)).op := by
  rw [decode_op, decode_op]
  simp

/-- No row examines the data bits. -/
theorem and_mask_of_mem_opTable : ∀ row ∈ opTable, 0x1F00 &&& row.mask = row.mask := by decide

theorem selectedOps_high (w : EventWord) : selectedOps w = selectedOps (w &&& 0x1F00) := by
  refine congrArg (List.map OpRow.op) (List.filter_congr fun row hrow => ?_)
  rw [rowSelects, rowSelects, BitVec.and_assoc, and_mask_of_mem_opTable row hrow]

/-- On the 32 values of bits 12:8. -/
theorem selectedOps_selectWord : ∀ k < 32, selectedOps (selectWord k) = [(decode (selectWord k)).op] := by
  decide

theorem selectedOps_eq (w : EventWord) : selectedOps w = [(decode w).op] := by
  have hk : w.toNat / 256 < 32 := by omega
  rw [selectedOps_high w, decode_op_high w, and_high_eq_selectWord]
  exact selectedOps_selectWord _ hk

/-- A property of the quotient by `m` is counted `m` times. -/
theorem countP_range_div (p : Nat → Bool) (m k : Nat) :
    (List.range (k * m)).countP (fun n => p (n / m)) = m * (List.range k).countP p := by
  induction k with
  | zero => simp
  | succ k ih =>
    have hblock : (List.range m).countP ((fun n => p (n / m)) ∘ (k * m + ·)) = m * [k].countP p := by
      have hquot : ∀ j ∈ List.range m, (k * m + j) / m = k := fun j hj => by
        have hj := List.mem_range.mp hj
        rw [Nat.mul_comm, Nat.mul_add_div (by omega), Nat.div_eq_of_lt hj, Nat.add_zero]
      rw [List.countP_congr (q := fun _ => p k) fun j hj => by simp [hquot j hj]]
      cases hp : p k <;> simp [hp]
    rw [Nat.succ_mul, List.range_add, List.countP_append, ih, List.countP_map, hblock, List.range_succ,
      List.countP_append, Nat.mul_add]

/-- Among all event words an operation has 256 for each value of bits 12:8 that selects it. -/
theorem countP_decode_op (op : Op) :
    (List.range 8192).countP (fun n => decide ((decode (BitVec.ofNat 13 n)).op = op)) =
      256 * (List.range 32).countP (fun k => decide ((decode (selectWord k)).op = op)) := by
  simp only [decode_op_high (BitVec.ofNat 13 _), ofNat_and_high]
  exact countP_range_div (fun k => decide ((decode (selectWord k)).op = op)) 256 32

/-- Settles O10: rows and decoder agree on the 32 values of bits 12:8, and the words are counted by those. -/
theorem exactlyOneRowSelectsEachWord : Obligations.ExactlyOneRowSelectsEachWord := by
  refine ⟨selectedOps_eq, ?_⟩
  simp only [countP_decode_op]
  decide

end Sys2Proof

namespace Sys2Proof.Machine

/-! ## The event word of pins and phase (R67, R74) -/

/-- Settles O8: `eventWord` puts the pins and the phase into the fields of an event word. -/
theorem eventWordFieldPositions : Obligations.EventWordFieldPositions := by
  intro x phase
  refine ⟨eventWordOf_r .., eventWordOf_v .., eventWordOf_e .., ?_, eventWordOf_m .., dataField_eventWordOf ..⟩
  rw [eventWord, eventWordOf_s, Phase.bit_eq_true_iff]

/-- Settles O9: the decoder on the fields of the word, clause by clause. -/
theorem operationSelectInPriorityOrder : Obligations.OperationSelectInPriorityOrder := by
  intro x phase
  simp only [eventWord, decode_eventWordOf]
  refine ⟨fun hrst => ?_, fun hrst hvalid => ?_, fun hrst hvalid herr => ?_, fun hrst hvalid herr hfsm => ?_,
    fun hrst hvalid herr hfsm hmode => ?_, fun hrst hvalid herr hfsm hmode => ?_⟩
  · simp [hrst, Instr.op]
  · simp [hrst, hvalid, Instr.op]
  · simp [hrst, hvalid, herr, Instr.op]
  · refine ⟨fracCodeOf x.inData, reservedOf x.inData, ?_, (fracCodeOf_append_reservedOf _).symm⟩
    simp [hrst, hvalid, herr, hfsm, Phase.bit]
  · simp [hrst, hvalid, herr, hfsm, hmode, Phase.bit]
  · simp [hrst, hvalid, herr, hfsm, hmode, Phase.bit]

/-! ## The integer part (R63) -/

/-- A byte read as signed. -/
theorem byte_toInt_eq_bit7 (b : Byte) : b.toInt = if b.getLsbD 7 then (b.toNat : Int) - 256 else b.toNat := by
  rw [BitVec.toInt_eq_msb_cond, BitVec.msb_eq_getLsbD_last]
  rfl

/-- What an emission of a byte shows on `rd_int`, as R63 says it. -/
theorem Registers.emit_rdInt_signExtended {p : Params} (r : Registers p) (b : Byte) (c : FracCode) :
    (∀ j, j < p.intW → (r.emit b c).rdInt.getLsbD j = if j < 8 then b.getLsbD j else b.getLsbD 7) ∧
    (r.emit b c).rdInt.toInt = if b.getLsbD 7 then (b.toNat : Int) - 256 else b.toNat :=
  ⟨fun _ hj => sext_getLsbD hj b, (sext_toInt p.intW_ge b).trans (byte_toInt_eq_bit7 b)⟩

/-- Settles O25: INT1 emits its byte, FRAC the held byte. -/
theorem integerPartIsSignExtended : Obligations.IntegerPartIsSignExtended :=
  ⟨fun b s => ⟨_, exec_eq _ s, s.regs.emit_rdInt_signExtended b 0⟩,
    fun _ code _ s => ⟨_, exec_eq _ s, s.regs.emit_rdInt_signExtended s.regs.msbHold code⟩⟩

/-! ## The fraction (R64, R65, R66) -/

/-- A data byte in AwaitingFractionByte ends the frame with its fraction code. -/
theorem step_ofByte_awaitingFraction {s : State} (hfsm : s.regs.fsm = .awaitingFraction) (b : Byte) (m : Bool)
    (rest : List Pins) : step { s with input := Pins.ofByte b m :: rest } =
      .next { s with
        regs := { s.regs.emit s.regs.msbHold (fracCodeOf b) with fsm := .awaitingInteger }
        input := rest } := by
  rw [step_cons, edge_byte_awaitingFraction (b := b) (m := m) rfl hfsm]

/-- The reserved bits are no part of the fraction code (R66). -/
theorem fracCodeOf_and_topBits (b : Byte) : fracCodeOf (b &&& 0xC0) = fracCodeOf b := by
  rw [fracCodeOf, BitVec.extractLsb'_and]
  exact BitVec.and_allOnes

/-- Settles O24: the step depends on the byte by its fraction code alone. -/
theorem reservedBitsHaveNoEffect : Obligations.ReservedBitsHaveNoEffect := by
  intro s b b' m m' rest hfsm hbits
  have hcode : fracCodeOf b = fracCodeOf b' := by
    rw [← fracCodeOf_and_topBits b, hbits, fracCodeOf_and_topBits]
  rw [step_ofByte_awaitingFraction hfsm, step_ofByte_awaitingFraction hfsm, hcode]

/-- Bits 7 and 6 of a byte as a number (R64). -/
theorem fracCodeOf_toNat (b : Byte) : (fracCodeOf b).toNat = b.toNat / 64 := by
  have hlt : b.toNat / 64 < 4 := by omega
  rw [fracCodeOf, BitVec.extractLsb'_toNat, Nat.shiftRight_eq_div_pow]
  exact Nat.mod_eq_of_lt hlt

/-- Settles O26: the code emitted is that of the byte, and the mux gives the document's hundredths. -/
theorem fractionComesFromTopTwoBits : Obligations.FractionComesFromTopTwoBits := by
  intro s lsb m rest hfsm
  exact ⟨_, step_ofByte_awaitingFraction hfsm lsb m rest, rfl, fracCodeOf_toNat lsb,
    (fracMux_toNat _).trans (hundredths_fracCodeOf lsb)⟩

/-! ## The lines of a trace (R73) -/

/-- `n` lines NOP are `n` edges at which nothing is presented. -/
theorem expandTrace_replicate_nop (cfg : Bool) (n : Nat) (rest : List TraceLine) :
    expandTrace cfg (List.replicate n .nop ++ rest) =
      List.replicate n (Pins.nopLine cfg) ++ expandTrace cfg rest := by
  induction n with
  | zero => rfl
  | succ n ih => exact congrArg (Pins.nopLine cfg :: ·) ih

theorem expandTrace_wait (cfg : Bool) (n : Nat) (rest : List TraceLine) :
    expandTrace cfg (.wait n :: rest) = List.replicate n (Pins.nopLine cfg) ++ expandTrace cfg rest := rfl

/-- Settles O36: each line expands by the definition of its pins, WAIT by induction on its number. -/
theorem traceNotationExpands : Obligations.TraceNotationExpands := by
  intro cfg rest a b d r v e m n
  refine ⟨rfl, rfl, rfl, rfl, rfl, rfl, rfl, rfl, rfl, rfl, rfl, rfl, ?_, ?_⟩
  · rw [expandTrace_wait, expandTrace_replicate_nop]
  · rw [expandTrace_wait, List.length_append, List.length_replicate]

end Sys2Proof.Machine

/-! Proofs of the statements of 40_frame_decode.md: the operations INT1, INT2 and FRAC, and the document's
`decodeFrame`. -/

namespace Sys2Proof

/-! ## An operation and its operands, by the row of the operation map (R68) -/

section Select
open Laws.TableRow (rowOf)

theorem rowOf_mem_opTable (op : Op) : rowOf op ∈ opTable := by cases op <;> simp [rowOf, opTable]

theorem rowOf_op (op : Op) : (rowOf op).op = op := by cases op <;> rfl

/-- The map has one row for each operation. -/
theorem eq_rowOf_of_mem_opTable : ∀ row ∈ opTable, row = rowOf row.op := by decide

theorem mem_selectedOps_iff (w : EventWord) (op : Op) : op ∈ selectedOps w ↔ rowSelects (rowOf op) w = true := by
  simp only [selectedOps, List.mem_map, List.mem_filter]
  constructor
  · rintro ⟨row, ⟨hrow, hselects⟩, rfl⟩
    rwa [← eq_rowOf_of_mem_opTable row hrow]
  · exact fun h => ⟨rowOf op, ⟨rowOf_mem_opTable op, h⟩, rowOf_op op⟩

/-- The decoder selects the operation whose row matches the event word. -/
theorem decode_op_eq_iff (w : EventWord) (op : Op) :
    (decode w).op = op ↔ w &&& (rowOf op).mask = (rowOf op).pattern := by
  rw [← beq_iff_eq (a := w &&& _), ← rowSelects, ← mem_selectedOps_iff, selectedOps_eq, List.mem_singleton, eq_comm]

end Select

/-- A word decodes to the instruction of an operation with given operands exactly when it selects the operation and
its fields hold the operands: the encoder puts them there, and decoding drops nothing. -/
theorem decode_eq_iff_op_and_field {α : Type} {mk : α → Instr} {op : Op} {field : EventWord → α}
    (hop : ∀ i : Instr, i.op = op ↔ ∃ a, i = mk a) (hfield : ∀ a, field (encode (mk a)) = a)
    (w : EventWord) (a : α) : decode w = mk a ↔ (decode w).op = op ∧ a = field w := by
  have field_eq {a' : α} (h : decode w = mk a') : a' = field w := by
    rw [← encode_decode w, h, hfield]
  constructor
  · exact fun h => ⟨(hop _).mpr ⟨a, h⟩, field_eq h⟩
  · rintro ⟨hw, rfl⟩
    obtain ⟨a', ha'⟩ := (hop _).mp hw
    rw [← field_eq ha', ha']

theorem op_eq_int1_iff (i : Instr) : i.op = .int1 ↔ ∃ b, i = .int1 b := by
  cases i <;> simp [Instr.op]

theorem op_eq_int2_iff (i : Instr) : i.op = .int2 ↔ ∃ b, i = .int2 b := by
  cases i <;> simp [Instr.op]

/-- INT1 is selected by its row, its operand is the data field (R81). -/
theorem decode_eq_int1_iff (w : EventWord) (b : Byte) :
    decode w = .int1 b ↔ w &&& 0x1F00 = 0x0800 ∧ b = w.extractLsb' 0 8 := by
  rw [decode_eq_iff_op_and_field op_eq_int1_iff (fun _ => dataField_eventWordOf ..), decode_op_eq_iff]
  rfl

/-- INT2 is selected by its row, its operand is the data field (R82). -/
theorem decode_eq_int2_iff (w : EventWord) (b : Byte) :
    decode w = .int2 b ↔ w &&& 0x1F00 = 0x0900 ∧ b = w.extractLsb' 0 8 := by
  rw [decode_eq_iff_op_and_field op_eq_int2_iff (fun _ => dataField_eventWordOf ..), decode_op_eq_iff]
  rfl

section Frac

/-- FRAC on its three operands together. -/
def fracOf (a : Bool × FracCode × BitVec 6) : Instr := .frac a.1 a.2.1 a.2.2

/-- Where the operands of FRAC stand in an event word (R62, R67). -/
def fracFields (w : EventWord) : Bool × FracCode × BitVec 6 :=
  (w.getLsbD 8, fracCodeOf (dataField w), reservedOf (dataField w))

theorem op_eq_frac_iff (i : Instr) : i.op = .frac ↔ ∃ a, i = fracOf a := by
  cases i <;> simp [Instr.op, fracOf]

theorem fracFields_encode_fracOf (a : Bool × FracCode × BitVec 6) : fracFields (encode (fracOf a)) = a := by
  obtain ⟨m, code, rsv⟩ := a
  simp only [fracFields, fracOf, encode, eventWordOf_m, dataField_eventWordOf, fracCodeOf_append, reservedOf_append]

/-- A part of the data field is a part of the event word. -/
theorem extractLsb'_dataField (w : EventWord) {start len : Nat} (h : start + len ≤ 8) :
    (dataField w).extractLsb' start len = w.extractLsb' start len := by
  apply BitVec.eq_of_getLsbD_eq
  intro i hi
  simp [dataField, show start + i < 8 by omega]

/-- FRAC is selected by its row, its operands are the mode bit and the two fields of the data byte (R83). -/
theorem decode_eq_frac_iff (w : EventWord) (m : Bool) (code : FracCode) (rsv : BitVec 6) :
    decode w = .frac m code rsv ↔
      w &&& 0x1E00 = 0x0A00 ∧ m = w.getLsbD 8 ∧ code = w.extractLsb' 6 2 ∧ rsv = w.extractLsb' 0 6 := by
  have h := decode_eq_iff_op_and_field op_eq_frac_iff fracFields_encode_fracOf w (m, code, rsv)
  rw [decode_op_eq_iff, fracFields, fracCodeOf, reservedOf, extractLsb'_dataField w (by decide),
    extractLsb'_dataField w (by decide), Prod.mk.injEq, Prod.mk.injEq] at h
  exact h

end Frac

end Sys2Proof

namespace Sys2Proof.Machine

/-! ## The three operations (R81 to R83) -/

/-- Settles O5: INT1 is `Emit` of its byte with code 0. -/
theorem int1OperationEmitsIntegerByte : Obligations.Int1OperationEmitsIntegerByte :=
  ⟨decode_eq_int1_iff, fun b s => ⟨_, exec_eq _ s, (s.regs.emit_emitted b 0).withFsm _, rfl, rfl⟩⟩

/-- Settles O6: INT2 clears the outputs, holds its byte and moves the phase. -/
theorem int2OperationHoldsIntegerByte : Obligations.Int2OperationHoldsIntegerByte :=
  ⟨decode_eq_int2_iff, fun b s =>
    ⟨_, exec_eq _ s, rfl, rfl, regsAfter_outputsZero (i := .int2 b) (.inr (.inr rfl)) s.regs, rfl, rfl⟩⟩

/-- Settles O7: FRAC is `Emit` of the held byte with its own code. -/
theorem fracOperationEmitsHeldByte : Obligations.FracOperationEmitsHeldByte :=
  ⟨decode_eq_frac_iff, fun _ code _ s =>
    ⟨_, exec_eq _ s, (s.regs.emit_emitted s.regs.msbHold code).withFsm _, rfl, rfl⟩⟩

/-! ## What an emission shows, and what it leaves of an unwrapped counter (R69, R80, R85) -/

section Emitted
variable {p : Params} {r r' : Registers p} {i : Int} {c : Nat}

theorem Registers.Emitted.reading?_eq (h : r.Emitted r' i c) :
    r'.reading? =
      some { integerPart := i, fractionHundredths := 100 * c / 4, sequenceNumber := r.seq.toNat } := by
  simp only [Registers.reading?, h.rdValid, h.rdInt, h.rdFracCc, h.rdSeq, if_true]

/-- Below its top the counter does not wrap (R24). -/
theorem Registers.Emitted.seqWrapped_of_below (h : r.Emitted r' i c) (hwrapped : r.seqWrapped = false)
    (hbelow : r.seq.toNat < 2 ^ p.seqW - 1) : r'.seqWrapped = false := by
  rw [← Bool.not_eq_true, h.seqWrapped]
  simp [hwrapped, hbelow.ne]

end Emitted

/-! ## The edges of a frame (R81 to R83, R90) -/

/-- The registers that hold the integer byte of a two-byte frame (R82). -/
def Registers.holding {p : Params} (r : Registers p) (a : Byte) : Registers p :=
  { r.clearOutputs with msbHold := a, fsm := .awaitingFraction }

section Edge
variable {p : Params} {r : Registers p}

theorem Registers.holding_zero (r : Registers p) (a : Byte) : (r.holding a).OutputsZero :=
  { r.clearOutputs_zero with }

/-- The integer byte of a two-byte frame. -/
theorem edge_ofByte_twoByte (hfsm : r.fsm = .awaitingInteger) (a : Byte) :
    edge (Pins.ofByte a true) r = r.holding a := by
  simp [edge_eq, Pins.event?, Pins.ofByte, hfsm, Registers.holding]

/-- The integer byte of a one-byte frame. -/
theorem edge_ofByte_oneByte (hfsm : r.fsm = .awaitingInteger) (a : Byte) :
    edge (Pins.ofByte a false) r = { r.emit a 0 with fsm := .awaitingInteger } := by
  simp [edge_eq, Pins.event?, Pins.ofByte, hfsm]

/-- The fraction byte of the held integer byte. -/
theorem edge_ofByte_holding (r : Registers p) (a b : Byte) (m : Bool) :
    edge (Pins.ofByte b m) (r.holding a) =
      { (r.holding a).emit a (fracCodeOf b) with fsm := .awaitingInteger } :=
  edge_byte_awaitingFraction rfl rfl

theorem edge_error {x : Pins} (h : x.event? = some .error) (r : Registers p) : edge x r = r.takeStreamError := by
  rw [edge_eq, h]

end Edge

/-! ## The edges of a call of `decodeFrame` (R12, R85) -/

section Call
variable (k : Nat) (s : State) {x : Pins} (rest : List Pins) {r : Registers s.params}

/-- An edge that shows nothing does not end the call. -/
theorem decodeFrame_quiet (hedge : edge x s.regs = r) (hzero : r.OutputsZero) :
    decodeFrame (k + 1) { s with input := x :: rest } = decodeFrame k { s with regs := r, input := rest } := by
  simp [decodeFrame, step_cons, hedge, Registers.reading?, hzero.rdValid, hzero.errValid]

/-- An emission ends the call with its Reading. -/
theorem decodeFrame_emitted {i : Int} {c : Nat} (hedge : edge x s.regs = r) (hemit : s.regs.Emitted r i c) :
    decodeFrame (k + 1) { s with input := x :: rest } =
      .reading { integerPart := i, fractionHundredths := 100 * c / 4, sequenceNumber := s.regs.seq.toNat }
        { s with regs := r, input := rest } := by
  simp only [decodeFrame, step_cons, hedge, hemit.reading?_eq]

/-- An error ends the call with the phase before it. -/
theorem decodeFrame_error (h : x.event? = some .error) :
    decodeFrame (k + 1) { s with input := x :: rest } =
      .streamError s.regs.fsm.bit { s with regs := s.regs.takeStreamError, input := rest } := by
  simp [decodeFrame, step_cons, edge_error h, Registers.reading?]

/-- The outputs before a call do not matter. -/
theorem decodeFrame_clearOutputs :
    decodeFrame (k + 1) { s with regs := s.regs.clearOutputs } = decodeFrame (k + 1) s := by
  rw [decodeFrame_succ, decodeFrame_succ, edge_clearOutputs]
  rfl

/-- Idle edges before an event change nothing in how the call goes on. -/
theorem decodeFrame_gap {gap : List Pins} (h : ∀ x ∈ gap, x.event? = none) :
    decodeFrame (gap.length + (k + 1)) { s with input := gap ++ rest } =
      decodeFrame (k + 1) { s with input := rest } := by
  induction gap with
  | nil => rw [List.length_nil, Nat.zero_add, List.nil_append]
  | cons x gap ih =>
    obtain ⟨hx, hgap⟩ := List.forall_mem_cons.mp h
    calc decodeFrame ((x :: gap).length + (k + 1)) { s with input := x :: (gap ++ rest) }
        = decodeFrame (gap.length + (k + 1) + 1) { s with input := x :: (gap ++ rest) } := by
          rw [List.length_cons, Nat.add_right_comm]
      _ = decodeFrame (gap.length + (k + 1)) { s with regs := s.regs.clearOutputs, input := gap ++ rest } :=
          decodeFrame_quiet _ s _ (edge_idle s.regs hx) s.regs.clearOutputs_zero
      _ = decodeFrame (gap.length + (k + 1)) { s with input := gap ++ rest } :=
          decodeFrame_clearOutputs (gap.length + k) { s with input := gap ++ rest }
      _ = decodeFrame (k + 1) { s with input := rest } := ih hgap

/-- A call that begins a two-byte frame goes on as from the held byte, whatever idle edges stand before and after
the integer byte. -/
theorem decodeFrame_integerByte {gap gap' : List Pins} (hgap : ∀ x ∈ gap, x.event? = none)
    (hgap' : ∀ x ∈ gap', x.event? = none) (hfsm : s.regs.fsm = .awaitingInteger) (a : Byte) :
    decodeFrame (gap.length + gap'.length + 2) { s with input := gap ++ Pins.ofByte a true :: (gap' ++ rest) } =
      decodeFrame 1 { s with regs := s.regs.holding a, input := rest } :=
  calc decodeFrame (gap.length + gap'.length + 2) { s with input := gap ++ Pins.ofByte a true :: (gap' ++ rest) }
      = decodeFrame (gap.length + (gap'.length + 1 + 1))
          { s with input := gap ++ Pins.ofByte a true :: (gap' ++ rest) } := by rw [Nat.add_assoc]
    _ = decodeFrame (gap'.length + 1 + 1) { s with input := Pins.ofByte a true :: (gap' ++ rest) } :=
        decodeFrame_gap _ s _ hgap
    _ = decodeFrame (gap'.length + 1) { s with regs := s.regs.holding a, input := gap' ++ rest } :=
        decodeFrame_quiet _ s _ (edge_ofByte_twoByte hfsm a) (s.regs.holding_zero a)
    _ = decodeFrame 1 { s with regs := s.regs.holding a, input := rest } :=
        decodeFrame_gap 0 { s with regs := s.regs.holding a } _ hgap'

end Call

/-! ## The contract (R85) -/

/-- The hundredths of a fraction byte (R64, R65). -/
theorem hundredths_fracCodeOf_eq_div (b : Byte) : 100 * (fracCodeOf b).toNat / 4 = 25 * (b.toNat / 64) := by
  rw [fracCodeOf_toNat]
  omega

/-- Settles O29: idle edges go by, the integer byte of a two-byte frame is held, and the next event ends the call. -/
theorem decodeFrameMeetsItsContract : Obligations.DecodeFrameMeetsItsContract := by
  intro s gap gap' rest a b m bad hfsm hwrapped hbelow hgap hgap' hbad
  have hemit₁ := (s.regs.emit_emitted a 0).withFsm .awaitingInteger
  have hemit₂ := ((s.regs.holding a).emit_emitted a (fracCodeOf b)).withFsm .awaitingInteger
  have hunwrapped₁ := hemit₁.seqWrapped_of_below hwrapped hbelow
  have hunwrapped₂ := hemit₂.seqWrapped_of_below hwrapped hbelow
  refine ⟨⟨_, ?_, rfl, hemit₁.seq_of_unwrapped hunwrapped₁, hunwrapped₁⟩,
    ⟨_, ?_, rfl, hemit₂.seq_of_unwrapped hunwrapped₂, hunwrapped₂⟩,
    ⟨(s.regs.holding a).takeStreamError, ?_, rfl, rfl, rfl, rfl, hwrapped⟩,
    ⟨s.regs.takeStreamError, ?_, rfl, rfl, rfl, rfl, hwrapped⟩⟩
  · rw [decodeFrame_gap 0 s _ hgap]
    exact decodeFrame_emitted 0 s rest (edge_ofByte_oneByte hfsm a) hemit₁
  · rw [decodeFrame_integerByte s _ hgap hgap' hfsm, ← hundredths_fracCodeOf_eq_div]
    exact decodeFrame_emitted 0 { s with regs := s.regs.holding a } rest (edge_ofByte_holding s.regs a b m) hemit₂
  · rw [decodeFrame_integerByte s _ hgap hgap' hfsm]
    exact decodeFrame_error 0 { s with regs := s.regs.holding a } rest hbad
  · rw [decodeFrame_gap 0 s _ hgap, decodeFrame_error 0 s rest hbad, hfsm]
    rfl

end Sys2Proof.Machine

/-! Proof of the statement of 41_stream_error.md: the operation SERR. -/

namespace Sys2Proof.Machine

/-- Settles O4: SERR is selected by its row, and its effect is the taking of a stream error. -/
theorem serrOperationAbortsFrame : Obligations.SerrOperationAbortsFrame := by
  refine ⟨fun w => decode_op_eq_iff w .serr, fun f m d s => ⟨s.regs.takeStreamError, exec_eq _ s, ?_⟩⟩
  have hphase : s.regs.takeStreamError.errPhase = true ↔ s.regs.fsm = .awaitingFraction :=
    s.regs.fsm.bit_eq_true_iff
  exact ⟨rfl, rfl, hphase, rfl, rfl, rfl, rfl, rfl, rfl, rfl, rfl, rfl⟩

end Sys2Proof.Machine

/-! Proofs of the statements of 42_control.md: the operations RESET and IDLE. -/

namespace Sys2Proof.Machine

/-- Settles O1: RESET is selected by its row, and its writes leave the reset values. -/
theorem resetOperationWritesEveryRegister : Obligations.ResetOperationWritesEveryRegister := by
  refine ⟨fun w => decode_op_eq_iff w .reset, fun _ _ _ _ _ s =>
    ⟨Registers.reset s.params, ?_, rfl, rfl, rfl, rfl, Registers.reset_zero _⟩⟩
  rw [exec_eq, regsAfter_of_reset rfl]

/-- Settles O3: IDLE is selected by its row, and its effect is `ClearOutputs`. -/
theorem idleOperationClearsOutputsOnly : Obligations.IdleOperationClearsOutputsOnly :=
  ⟨fun w => decode_op_eq_iff w .idle, fun _ _ _ _ s =>
    ⟨_, exec_eq _ s, s.regs.clearOutputs_zero, s.regs.clearOutputs_kept⟩⟩

end Sys2Proof.Machine

/-! Proofs of the statements of 45_host_formatting.md: what the display text says, that it determines the
temperature, and that it reaches the sink. -/

namespace Sys2Proof.Machine

/-! ## Decimal digits without a leading zero (R101) -/

/-- The digits begin with a zero for 0 only. -/
theorem eq_zero_of_head?_toDigits {n : Nat} (h : (Nat.toDigits 10 n).head? = some '0') : n = 0 := by
  induction n using Nat.strongRecOn with
  | ind n ih =>
    by_cases hn : n < 10
    · rw [Nat.toDigits_of_lt_base hn, List.head?_singleton, Option.some_inj] at h
      exact Nat.digitChar_eq_zero.mp h
    · rw [Nat.toDigits_of_base_le (by decide) (by omega), List.head?_append_of_ne_nil _ Nat.toDigits_ne_nil] at h
      have hquot : n / 10 = 0 := ih (n / 10) (by omega) h
      omega

theorem all_isDigit_toDigits (n : Nat) : (Nat.toDigits 10 n).all Char.isDigit = true :=
  List.all_eq_true.mpr fun _ => Nat.isDigit_of_mem_toDigits (by decide) (by decide)

theorem minus_not_mem_toDigits (n : Nat) : '-' ∉ Nat.toDigits 10 n := fun h =>
  absurd (Nat.isDigit_of_mem_toDigits (by decide) (by decide) h) (by decide)

/-! ## The integer text (R101) -/

section IntegerText
variable {i i' : Int}

theorem itxt_of_neg (h : i < 0) : itxt i = '-' :: Nat.toDigits 10 i.natAbs := if_pos h

theorem itxt_of_nonneg (h : 0 ≤ i) : itxt i = Nat.toDigits 10 i.natAbs := if_neg (Int.not_lt.mpr h)

/-- The sign stands in the text exactly of a negative number. -/
theorem minus_mem_itxt_iff (i : Int) : '-' ∈ itxt i ↔ i < 0 := by
  by_cases h : i < 0
  · simp [itxt_of_neg h, h]
  · simp [itxt_of_nonneg (Int.not_lt.mp h), h, minus_not_mem_toDigits]

/-- The text has the sign and the magnitude, so it determines the number. -/
theorem itxt_inj : itxt i = itxt i' ↔ i = i' := by
  refine ⟨fun h => ?_, congrArg itxt⟩
  have hsign : i < 0 ↔ i' < 0 := by rw [← minus_mem_itxt_iff, h, minus_mem_itxt_iff]
  have hdigits : Nat.toDigits 10 i.natAbs = Nat.toDigits 10 i'.natAbs := by
    by_cases hi : i < 0
    · rw [itxt_of_neg hi, itxt_of_neg (hsign.mp hi)] at h
      exact List.tail_eq_of_cons_eq h
    · rwa [itxt_of_nonneg (by omega), itxt_of_nonneg (by omega)] at h
  have habs : i.natAbs = i'.natAbs := by
    rw [← Nat.ofDigitChars_ten_toDigits (n := i.natAbs), hdigits, Nat.ofDigitChars_ten_toDigits]
  omega

/-- The integer text of the block is 1 to 4 characters long. -/
theorem itxt_length_bounds (hlo : -128 ≤ i) (hhi : i ≤ 127) : 1 ≤ (itxt i).length ∧ (itxt i).length ≤ 4 := by
  have hpos : 0 < (Nat.toDigits 10 i.natAbs).length := Nat.length_toDigits_pos
  have hle : (Nat.toDigits 10 i.natAbs).length ≤ 3 := Nat.toDigits_length 10 _ 3 (by decide) (by omega)
  by_cases h : i < 0
  · rw [itxt_of_neg h, List.length_cons]
    omega
  · rw [itxt_of_nonneg (Int.not_lt.mp h)]
    omega

end IntegerText

/-! ## The fraction text (R102) -/

section FractionText
variable {cc cc' : Nat}

@[simp] theorem ftxt_length (cc : Nat) : (ftxt cc).length = 2 := rfl

theorem all_isDigit_ftxt (h : cc < 100) : (ftxt cc).all Char.isDigit = true := by
  simp only [ftxt, List.all_cons, List.all_nil, Nat.isDigit_digitChar, Bool.and_true, Bool.and_eq_true,
    decide_eq_true_eq]
  omega

/-- The two digits read back as the hundredths. -/
theorem ofDigitChars_ftxt (h : cc < 100) : Nat.ofDigitChars 10 (ftxt cc) 0 = cc := by
  rw [ftxt, Nat.ofDigitChars_cons_digitChar_of_lt_ten (by omega),
    Nat.ofDigitChars_cons_digitChar_of_lt_ten (by omega), Nat.ofDigitChars_nil]
  omega

theorem ftxt_inj (h : cc < 100) (h' : cc' < 100) : ftxt cc = ftxt cc' ↔ cc = cc' := by
  refine ⟨fun heq => ?_, congrArg ftxt⟩
  rw [← ofDigitChars_ftxt h, heq, ofDigitChars_ftxt h']

end FractionText

/-! ## The whole text (R103, R104) -/

theorem fmt_eq_append (rd : Reading) :
    fmt rd = itxt rd.integerPart ++ ['.'] ++ ftxt rd.fractionHundredths ++ [' ', '*', 'C'] := by
  simp only [fmt, List.append_assoc, List.cons_append, List.nil_append]

theorem fmt_length (rd : Reading) : (fmt rd).length = (itxt rd.integerPart).length + 6 := by
  simp [fmt_eq_append]

/-- What follows the integer text is always six characters, so equal texts have equal parts. -/
theorem fmt_eq_iff_parts_eq (rd rd' : Reading) : fmt rd = fmt rd' ↔
    itxt rd.integerPart = itxt rd'.integerPart ∧ ftxt rd.fractionHundredths = ftxt rd'.fractionHundredths := by
  constructor
  · intro h
    obtain ⟨hint, htail⟩ := List.append_inj' h (by simp)
    exact ⟨hint, List.append_cancel_right (List.tail_eq_of_cons_eq htail)⟩
  · rintro ⟨hint, hfrac⟩
    rw [fmt, fmt, hint, hfrac]

/-- Settles O37: the integer text is the library's decimal digits behind the sign, the fraction text two digits. -/
theorem displayTextReadsBack : Obligations.DisplayTextReadsBack := by
  intro i n c hlo hhi hc
  obtain ⟨hmin, hmax⟩ := itxt_length_bounds hlo hhi
  refine ⟨fun hneg => ⟨_, itxt_of_neg hneg, ?_, fun hzero => ?_, all_isDigit_toDigits _⟩, fun hnonneg => ?_,
    ofDigitChars_ftxt (by omega), ftxt_length _, all_isDigit_ftxt (by omega), fmt_eq_append _,
    (Nat.add_le_add_right hmin 6).trans_eq (fmt_length ⟨i, 25 * c, n⟩).symm,
    (fmt_length ⟨i, 25 * c, n⟩).trans_le (Nat.add_le_add_right hmax 6)⟩
  · exact (congrArg _ Nat.ofDigitChars_ten_toDigits).trans (Int.ofNat_natAbs_of_nonpos hneg.le)
  · exact hneg.ne (Int.natAbs_eq_zero.mp (eq_zero_of_head?_toDigits hzero))
  · rw [itxt_of_nonneg hnonneg]
    refine ⟨?_, Nat.toDigits_length 10 _ 3 (by decide) (by omega), fun hzero => ?_, all_isDigit_toDigits _⟩
    · exact (congrArg _ Nat.ofDigitChars_ten_toDigits).trans (Int.natAbs_of_nonneg hnonneg)
    · rw [eq_zero_of_head?_toDigits hzero, Nat.toDigits_zero]

/-- Settles O38: the text determines its two parts, and each part its number. -/
theorem displayTextDeterminesTemperature : Obligations.DisplayTextDeterminesTemperature := by
  intro i i' n n' c c' _ _ _ _ hc hc'
  have hfrac : ftxt (25 * c) = ftxt (25 * c') ↔ c = c' :=
    (ftxt_inj (by omega) (by omega)).trans (Nat.mul_right_inj (by decide))
  exact (fmt_eq_iff_parts_eq _ _).trans (and_congr itxt_inj hfrac)

/-! ## From the pins to the sink (R105) -/

/-- The two edges of a two-byte frame (R82, R83). -/
theorem edges_twoByteFrame {p : Params} {r : Registers p} (hfsm : r.fsm = .awaitingInteger) (a b : Byte) (m : Bool)
    (rest : List Pins) : edges 2 (Pins.ofByte a true :: Pins.ofByte b m :: rest) r =
      { (r.holding a).emit a (fracCodeOf b) with fsm := .awaitingInteger } := by
  rw [edges_cons, edges_cons, edges_zero, edge_ofByte_twoByte hfsm, edge_ofByte_holding]

/-- Settles O39: the second edge emits the held byte, with the counter it had before the frame. -/
theorem twoByteFrameReachesSink : Obligations.TwoByteFrameReachesSink := by
  intro s a b m rest hfsm
  have hemit := ((s.regs.holding a).emit_emitted a (fracCodeOf b)).withFsm .awaitingInteger
  refine ⟨_, _, ?_, hemit.reading?_eq, ?_⟩
  · rw [run_eq, edges_twoByteFrame hfsm]
    rfl
  · rw [sinkPair, fmt_eq_append, byte_toInt_eq_bit7, hundredths_fracCodeOf_eq_div]
    rfl

end Sys2Proof.Machine

/-! Proofs of the statements of 60_exceptions.md: what loses at an edge leaves no trace, when an error is reported,
and what an error leaves behind. -/

namespace Sys2Proof.Machine

/-! ## An edge depends on the pins through their event only (R12, R115) -/

section Event
variable {x y : Pins}

/-- Without `rst` and `in_valid` nothing is presented (R12). -/
theorem Pins.event?_of_idle (hrst : x.rst = false) (hvalid : x.inValid = false) : x.event? = none := by
  simp [Pins.event?, hrst, hvalid]

/-- The pins that present an error (R12). -/
theorem Pins.event?_eq_error_iff :
    x.event? = some .error ↔ x.rst = false ∧ x.inValid = true ∧ x.inErr = true := by
  cases hrst : x.rst with
  | true => simp [Pins.event?_of_rst hrst]
  | false =>
    cases hvalid : x.inValid with
    | false => simp [Pins.event?_of_idle hrst hvalid]
    | true => simp [Pins.event?, hrst, hvalid]

theorem edge_eq_of_event?_eq {p : Params} (h : x.event? = y.event?) (r : Registers p) : edge x r = edge y r := by
  rw [edge_eq, edge_eq, h]

end Event

/-- Settles O23: in each of the three cases the two pin vectors present the same event. -/
theorem losingPinsLeaveNoTrace : Obligations.LosingPinsLeaveNoTrace := by
  intro s x y rest h
  have hevent : x.event? = y.event? := by
    obtain ⟨hx, hy⟩ | ⟨hx, hy, hxvalid, hyvalid⟩ | ⟨hx, hy, hxvalid, hyvalid, hxerr, hyerr⟩ := h
    · rw [Pins.event?_of_rst hx, Pins.event?_of_rst hy]
    · rw [Pins.event?_of_idle hx hxvalid, Pins.event?_of_idle hy hyvalid]
    · rw [Pins.event?_eq_error_iff.mpr ⟨hx, hxvalid, hxerr⟩, Pins.event?_eq_error_iff.mpr ⟨hy, hyvalid, hyerr⟩]
  rw [step_cons, step_cons, edge_eq_of_event?_eq hevent]

/-! ## When an error is reported, and its code (R111, R112) -/

section Error
variable {p : Params}

/-- Only an error event is reported as an error: every other operation clears `err_valid`. -/
theorem edge_errValid_iff (x : Pins) (r : Registers p) :
    (edge x r).errValid = true ↔ x.event? = some .error := by
  rw [edge_eq]
  match x.event? with
  | none => simp
  | some .reset => simp
  | some .error => simp
  | some (.byte b m) =>
    cases r.fsm with
    | awaitingFraction => simp
    | awaitingInteger => cases m <;> simp

/-- The error code is 0 or 1 (R36 (c)). -/
theorem Registers.Inv.errCode_eq {r : Registers p} (h : r.Inv) : r.errCode = 0 ∨ r.errCode = 1 := by
  cases hvalid : r.errValid with
  | false => exact .inl (h.errorClear hvalid).1
  | true => exact .inr (h.errorCode hvalid)

end Error

/-- Settles O27: the edge reports an error exactly at an error event, and R36 (c) bounds the code. -/
theorem onlyStreamErrorIsReported : Obligations.OnlyStreamErrorIsReported := by
  intro s
  have hinv : (edge s.pins s.regs).Inv := regsAfter_inv _ _
  refine ⟨_, step_edge s, (edge_errValid_iff _ _).trans Pins.event?_eq_error_iff, hinv.errorCode, ?_, ?_⟩
  · obtain h | h := hinv.errCode_eq <;> simp [h]
  · obtain h | h := hinv.errCode_eq <;> simp [h]

/-! ## What an error leaves behind (R116, R117) -/

/-- The registers just after reset, but for the counter and its flag. -/
def Registers.freshBut {p : Params} (r : Registers p) : Registers p :=
  { Registers.reset p with seq := r.seq, seqWrapped := r.seqWrapped }

section Fresh
variable {p : Params} {r r' : Registers p}

/-- The held byte is in no report (R69, R70). -/
theorem Registers.SameButStale.reports_eq (h : r.SameButStale r') : r'.reports = r.reports := by
  rw [h.others]
  rfl

/-- A stale held byte is in no report of a run. -/
theorem Registers.SameButStale.edgeReports_eq (h : r.SameButStale r') (k : Nat) (input : List Pins) :
    edgeReports k input r' = edgeReports k input r := by
  induction k generalizing input r r' with
  | zero => rfl
  | succ k ih =>
    have hedge := h.after_edge (input.headD Pins.quiet)
    rw [edgeReports, edgeReports, hedge.reports_eq, ih hedge]

/-- An error leaves, but for its report, fresh registers with a stale held byte. -/
theorem Registers.freshBut_sameKept_takeStreamError (r : Registers p) :
    Registers.SameKept { r.freshBut with msbHold := r.msbHold } r.takeStreamError :=
  ⟨rfl, rfl, rfl, rfl⟩

/-- After an error everything is reported as from fresh registers with the same counter. -/
theorem edgeReports_takeStreamError (r : Registers p) (k : Nat) (input : List Pins) :
    edgeReports k input r.takeStreamError = edgeReports k input r.freshBut :=
  calc edgeReports k input r.takeStreamError
      = edgeReports k input { r.freshBut with msbHold := r.msbHold } :=
        r.freshBut_sameKept_takeStreamError.edgeReports_eq k input
    _ = edgeReports k input r.freshBut :=
        (Registers.sameButStale_setHeld (r := r.freshBut) rfl r.msbHold).edgeReports_eq k input

end Fresh

/-- Settles O35: the error edge leaves a stale held byte and the error report, and no later report shows either. -/
theorem errorEdgeLeavesFreshBlock : Obligations.ErrorEdgeLeavesFreshBlock := by
  intro s herror
  refine ⟨s.regs.takeStreamError, ?_, rfl, rfl, fun k => ?_⟩
  · rw [step_edge, edge_error herror]
  · rw [reportsOver_eq, reportsOver_eq]
    exact edgeReports_takeStreamError s.regs k s.input.tail

end Sys2Proof.Machine

/-! Proof of the statement of 70_reset_and_hazards.md: what follows a clean end. -/

namespace Sys2Proof.Machine

/-! ## Edges at which the environment presents nothing (R96, R144) -/

section CleanEnd
variable {p : Params} {input : List Pins}

/-- The next edge is idle, also where the listed input is used up. -/
theorem edge_of_no_event (h : ∀ x ∈ input, x.event? = none) (r : Registers p) :
    edge (input.headD Pins.quiet) r = r.clearOutputs := by
  cases input with
  | nil => exact edge_idle r (Pins.event?_of_idle rfl rfl)
  | cons x rest => exact edge_idle r (h x List.mem_cons_self)

theorem edgeReports_of_no_event (h : ∀ x ∈ input, x.event? = none) (k : Nat) (r : Registers p) :
    edgeReports k input r = [] := by
  induction k generalizing input r with
  | zero => rfl
  | succ k ih =>
    have htail : ∀ x ∈ input.tail, x.event? = none := fun x hx => h x (List.mem_of_mem_tail hx)
    rw [edgeReports, edge_of_no_event h, r.reports_clearOutputs, ih htail, List.nil_append]

theorem sameKept_edges_of_no_event (h : ∀ x ∈ input, x.event? = none) (k : Nat) (r : Registers p) :
    r.SameKept (edges k input r) := by
  induction k generalizing input r with
  | zero => exact .refl r
  | succ k ih =>
    have htail : ∀ x ∈ input.tail, x.event? = none := fun x hx => h x (List.mem_of_mem_tail hx)
    rw [edges, edge_of_no_event h]
    exact r.clearOutputs_kept.trans (ih htail r.clearOutputs)

/-- `busy` is the output of `fsm` (R27), a kept register. -/
theorem Registers.SameKept.busy_eq {r r' : Registers p} (h : r.SameKept r') : r'.outputs.busy = r.outputs.busy :=
  congrArg Phase.bit h.fsm

end CleanEnd

/-- Settles O33: every further edge is idle, so it reports nothing and changes output registers only. -/
theorem cleanEndStaysQuiet : Obligations.CleanEndStaysQuiet := by
  intro s k hend
  obtain ⟨hbusy, hquiet⟩ := hend
  have hkept := sameKept_edges_of_no_event hquiet k s.regs
  refine ⟨?_, _, run_eq k s, hkept.busy_eq.trans hbusy, hkept⟩
  rw [reportsOver_eq, edgeReports_of_no_event hquiet]

end Sys2Proof.Machine
